-- ==== Sys2Proof/Word.lean ====
section
/-! DEFINITION. The bit-vector types of the hardware: the command and response word (R50, R56)
and the storage byte of the two buffers (R44). Everything else the spec counts is a natural. -/

namespace Sys2Proof

/-- A command word or a response word, 32 bits (R50, R56). -/
abbrev Word := BitVec 32

/-- The storage unit of the buffers, 8 bits; bit 0 is the least significant (R31, R44). -/
abbrev Byte := BitVec 8

end Sys2Proof
end

