-- ==== Sys2Proof/Syntax.lean ====
section
/-! DEFINITION. The commands of the block, one constructor per row of spec/opcode_table.json
(R53), with the operands as R52 gives them: `x` and `y` naturals, `v` one bit. -/

namespace Sys2Proof

/-- The ten commands (R53, R58). -/
inductive Instr where
  /-- RST, `reset()` (R70). -/
  | rst
  /-- STC, `stepColumn()` (R71). -/
  | stc
  /-- STR, `stepRow()` (R72). -/
  | str
  /-- SPX x, y, v, `setPixel(x, y, value)` (R80). -/
  | spx (x y : Nat) (v : Bool)
  /-- CLR, `clearAll()` (R81). -/
  | clr
  /-- GPX x, y, one element of the scan sequence (R82). -/
  | gpx (x y : Nat)
  /-- CMT v, `commit(value)` (R90). -/
  | cmt (v : Bool)
  /-- FCL, `fullClear()` (R96). -/
  | fcl
  /-- AWR x, y, v, `addressedWrite(x, y, value)` (R97). -/
  | awr (x y : Nat) (v : Bool)
  /-- RDW, `redraw()` (R98). -/
  | rdw
  deriving DecidableEq, Repr

end Sys2Proof
end

