-- ==== Sys2Proof/WellFormed.lean ====
section
/-! DEFINITION. When a command can be written as a word: its operands fit their fields. "An
operand that does not fit its field (`x > 4095`, `y > 4095`, `v > 1`) is an assembler error, not a
command" (R57); `v` is a Boolean here and always fits. -/

namespace Sys2Proof

/-- A coordinate fits its 12-bit field (R50, R57). -/
abbrev fitsField (n : Nat) : Prop := n ≤ 4095

/-- A command whose operands all fit their fields (R57). A coordinate beyond the panel is still
well formed: it is the command's own rule that checks the panel's bounds (R52). -/
abbrev Instr.wf : Instr → Prop
  | .rst => True
  | .stc => True
  | .str => True
  | .spx x y _ => fitsField x ∧ fitsField y
  | .clr => True
  | .gpx x y => fitsField x ∧ fitsField y
  | .cmt _ => True
  | .fcl => True
  | .awr x y _ => fitsField x ∧ fitsField y
  | .rdw => True

end Sys2Proof
end

