-- ==== Sys2Proof/Decode.lean ====
section
/-! DEFINITION. The command decoder, total on 32-bit words (R50 to R55), and after it the encoder
(R50, R57). The decoder reads fields and formats (R50, R51); the table of match and mask words
(R53) is given beside it, and a statement for the provers says the two agree. -/

namespace Sys2Proof

/-! ## Fields of a command word (R50) -/

/-- `OP = cmd[31:28]`. -/
def opField (w : Word) : BitVec 4 := w.extractLsb' 28 4

/-- `RSV = cmd[27:25]`. -/
def rsvField (w : Word) : BitVec 3 := w.extractLsb' 25 3

/-- `V = cmd[24]`, 1 is set/on. -/
def vField (w : Word) : Bool := w.getLsbD 24

/-- `X = cmd[23:12]`, unsigned. -/
def xField (w : Word) : BitVec 12 := w.extractLsb' 12 12

/-- `Y = cmd[11:0]`, unsigned. -/
def yField (w : Word) : BitVec 12 := w.extractLsb' 0 12

/-! ## Formats and opcodes (R51, R53) -/

/-- The four formats (R51). -/
inductive Format where
  /-- uses `OP` only -/
  | n
  /-- uses `OP`, `V` -/
  | v
  /-- uses `OP`, `X`, `Y` -/
  | xy
  /-- uses `OP`, `V`, `X`, `Y` -/
  | xyv
  deriving DecidableEq, Repr

/-- The unused fields of a format, `RSV` apart, are all zeros in this word (R51). -/
def Format.unusedZero (f : Format) (w : Word) : Bool :=
  match f with
  | .n => !vField w && xField w == 0#12 && yField w == 0#12
  | .v => xField w == 0#12 && yField w == 0#12
  | .xy => !vField w
  | .xyv => true

/-- The rows of the opcode map (R53). -/
inductive Opcode where
  | rst | stc | str | spx | clr | gpx | cmt | fcl | awr | rdw
  deriving DecidableEq, Repr

/-- Every row, in the table's order. -/
def Opcode.all : List Opcode := [.rst, .stc, .str, .spx, .clr, .gpx, .cmt, .fcl, .awr, .rdw]

/-- The row's `OP` value (R53, D3). -/
def Opcode.code : Opcode → BitVec 4
  | .rst => 0x1#4
  | .stc => 0x2#4
  | .str => 0x3#4
  | .spx => 0x4#4
  | .clr => 0x5#4
  | .gpx => 0x6#4
  | .cmt => 0x8#4
  | .fcl => 0x9#4
  | .awr => 0xA#4
  | .rdw => 0xB#4

/-- The row's format (R51, R53). -/
def Opcode.format : Opcode → Format
  | .rst => .n
  | .stc => .n
  | .str => .n
  | .spx => .xyv
  | .clr => .n
  | .gpx => .xy
  | .cmt => .v
  | .fcl => .n
  | .awr => .xyv
  | .rdw => .n

/-- The row's `match` word (R53). -/
def Opcode.pattern : Opcode → Word
  | .rst => 0x10000000#32
  | .stc => 0x20000000#32
  | .str => 0x30000000#32
  | .spx => 0x40000000#32
  | .clr => 0x50000000#32
  | .gpx => 0x60000000#32
  | .cmt => 0x80000000#32
  | .fcl => 0x90000000#32
  | .awr => 0xA0000000#32
  | .rdw => 0xB0000000#32

/-- The row's `mask` word (R53). -/
def Opcode.mask : Opcode → Word
  | .rst => 0xFFFFFFFF#32
  | .stc => 0xFFFFFFFF#32
  | .str => 0xFFFFFFFF#32
  | .spx => 0xFE000000#32
  | .clr => 0xFFFFFFFF#32
  | .gpx => 0xFF000000#32
  | .cmt => 0xFEFFFFFF#32
  | .fcl => 0xFFFFFFFF#32
  | .awr => 0xFE000000#32
  | .rdw => 0xFFFFFFFF#32

/-- "a word `w` selects the row when `w AND mask = match`" (R53). -/
def Opcode.selects (o : Opcode) (w : Word) : Bool := w &&& o.mask == o.pattern

/-- The row with this `OP` value; 0, 7 and 12 to 15 are reserved (R53, R54). -/
def Opcode.ofCode (op : BitVec 4) : Option Opcode :=
  match op.toNat with
  | 1 => some .rst
  | 2 => some .stc
  | 3 => some .str
  | 4 => some .spx
  | 5 => some .clr
  | 6 => some .gpx
  | 8 => some .cmt
  | 9 => some .fcl
  | 10 => some .awr
  | 11 => some .rdw
  | _ => none

/-- The command of this row with the operands the word carries: unsigned, unscaled (R52). -/
def Opcode.instr (o : Opcode) (w : Word) : Instr :=
  let x := (xField w).toNat
  let y := (yField w).toNat
  let v := vField w
  match o with
  | .rst => .rst
  | .stc => .stc
  | .str => .str
  | .spx => .spx x y v
  | .clr => .clr
  | .gpx => .gpx x y
  | .cmt => .cmt v
  | .fcl => .fcl
  | .awr => .awr x y v
  | .rdw => .rdw

/-! ## The decoder -/

/-- Why a word is illegal (R54). The response is the same for all three (R123); the name only says
which clause of R54 the word falls under first (log 15). -/
inductive Illegal where
  /-- `OP` is 0, 7 or 12 to 15 -/
  | reservedOpcode
  /-- `RSV` is not `000` -/
  | reservedBits
  /-- a field the command's format does not use is not zero -/
  | unusedField
  deriving DecidableEq, Repr

/-- The decoder: every 32-bit word either selects exactly one row or is illegal (R54). -/
def decode (w : Word) : Except Illegal Instr :=
  match Opcode.ofCode (opField w) with
  | none => .error .reservedOpcode
  | some o =>
    if rsvField w != 0#3 then .error .reservedBits
    else if o.format.unusedZero w then .ok (o.instr w)
    else .error .unusedField

/-! ## The encoder -/

/-- A word from its fields, most significant first, `RSV` zero (R50). -/
def assemble (op : BitVec 4) (v : Bool) (x y : BitVec 12) : Word :=
  op ++ 0#3 ++ BitVec.ofBool v ++ x ++ y

/-- The word of a command, absent operands taken as 0 (R57). The operands fit their fields in a
well-formed command. -/
def encode : Instr → Word
  | .rst => assemble Opcode.rst.code false 0#12 0#12
  | .stc => assemble Opcode.stc.code false 0#12 0#12
  | .str => assemble Opcode.str.code false 0#12 0#12
  | .spx x y v => assemble Opcode.spx.code v (BitVec.ofNat 12 x) (BitVec.ofNat 12 y)
  | .clr => assemble Opcode.clr.code false 0#12 0#12
  | .gpx x y => assemble Opcode.gpx.code false (BitVec.ofNat 12 x) (BitVec.ofNat 12 y)
  | .cmt v => assemble Opcode.cmt.code v 0#12 0#12
  | .fcl => assemble Opcode.fcl.code false 0#12 0#12
  | .awr x y v => assemble Opcode.awr.code v (BitVec.ofNat 12 x) (BitVec.ofNat 12 y)
  | .rdw => assemble Opcode.rdw.code false 0#12 0#12

/-! ## The host's view of the decoder -/

/-- The command word whose low `nbits` bits are `w` and whose other bits are 0. -/
def tableWord (nbits w : Nat) : Word := BitVec.ofNat 32 (w % 2 ^ nbits)

/-- What the decoder reads from an instruction whose bits are `w`, numbered as
spec/opcode_table.json numbers them: a command is one 32-bit word, presented whole (R50, R55). -/
def decodeTableWord (nbits w : Nat) : Option Instr :=
  match decode (tableWord nbits w) with
  | .ok i => some i
  | .error _ => none

end Sys2Proof
end

