-- ==== Sys2Proof/Config.lean ====
section
/-! DEFINITION. What one implementation fixes (R3, R4) and the free values of the panel (R110,
R114). The five parameters are arguments of the model: every state carries them (log 1). -/

namespace Sys2Proof

/-- The parameters of 00_scope.md section 4: the geometry `W`, `H` (R3; the read-only constants
`WIDTH`, `HEIGHT` of R18) and the three durations in microseconds (R4). -/
structure Config where
  /-- `W`, the number of columns (R3). -/
  width : Nat
  /-- `H`, the number of rows (R3). -/
  height : Nat
  /-- `T_STEP`, the hold of a column-step or row-step pulse (R4). -/
  tStep : Nat
  /-- `T_COMMIT`, the hold of a commit pulse (R4). -/
  tCommit : Nat
  /-- `T_RESET`, the hold of the reset pulse (R4). -/
  tReset : Nat
  deriving DecidableEq, Repr

/-- The values this hardware takes (R3, R4, D7, D8). -/
def Config.default : Config where
  width := 32
  height := 16
  tStep := 1
  tCommit := 600
  tReset := 0

/-- The bounds the spec puts on the parameters: `1 <= W <= 2048`, `1 <= H <= 2048` (R3, D6) and
`T_COMMIT > T_STEP` (R4). -/
abbrev Config.wf (c : Config) : Prop :=
  (1 ≤ c.width ∧ c.width ≤ 2048) ∧ (1 ≤ c.height ∧ c.height ≤ 2048) ∧ c.tStep < c.tCommit

/-- FREE VALUE (R110, U7; log 7): the polarity of dot `(x, y)` of the panel when the model begins,
for a dot no commit pulse has written since. Nothing constrains it. -/
opaque Config.initialDot : Nat → Nat → Bool

/-- FREE VALUE (R114, U8; log 8): the index of the dot under the physical head while its position
is unknown (`PV = 0`); applied to the number of step pulses the panel has seen while it was, so that
the dot stays the same until the next step pulse (R90); taken modulo the number of dots. -/
opaque Config.blindDot : Nat → Nat

/-- FREE VALUE (R114, U3; log 9): whether the dot takes the new polarity at a commit pulse held
for less than `T_COMMIT`; applied to the panel's count of such pulses. -/
opaque Config.shortCommitFlips : Nat → Bool

end Sys2Proof
end

