-- ==== Sys2Proof/Machine/State.lean ====
section
/-! DEFINITION. The state of the block (10_state.md), of the host that drives it (R2) and of the
panel its lines drive (R24), as plain data; the state after power-on reset (R27, R140); and the
reasons a step can stop. -/

namespace Sys2Proof.Machine

/-- The five output lines (R7, R16). -/
inductive Line where
  /-- column-step -/
  | col
  /-- row-step -/
  | row
  /-- reset -/
  | rst
  /-- polarity, set/unset -/
  | pol
  /-- commit-pulse -/
  | cmt
  deriving DecidableEq, Repr

/-- The event alphabet, exactly (R7). -/
inductive Event where
  /-- `setHigh()` on a line -/
  | high (l : Line)
  /-- `setLow()` on a line -/
  | low (l : Line)
  /-- a blocking wait of `t` microseconds -/
  | delay (t : Nat)
  deriving DecidableEq, Repr

/-- A position of a head: column and row (R10, R11, R24). -/
structure Pos where
  x : Nat
  y : Nat
  deriving DecidableEq, Repr

/-- `LINES`, the levels of the five output lines (R16). -/
structure Lines where
  col : Bool
  row : Bool
  rst : Bool
  pol : Bool
  cmt : Bool
  deriving DecidableEq, Repr

/-- The bytes of one buffer that are not `0x00`, by rising byte offset (R19, R20). An offset that
is not listed reads as `0x00`, the reset contents (R27; log 13). -/
abbrev Memory := List Host.Cell

/-- The mode of the block: there is one (R129). -/
inductive Mode where
  | idle
  deriving DecidableEq, Repr

/-- The status of a response (R56, R120). -/
inductive Status where
  /-- the command ran to completion -/
  | ok
  /-- a coordinate is outside the panel, nothing was done -/
  | outOfRange
  /-- the word matches no opcode row, nothing was done -/
  | illegalCommand
  /-- AWR while `HV = 0`, nothing was done -/
  | headUndefined
  deriving DecidableEq, Repr

/-- The response to one command, `(status, data)` (R56). -/
structure Response where
  status : Status
  data : BitVec 2
  deriving DecidableEq, Repr

/-- A pulse the panel has seen the rising edge of: the line, and the hold so far (R111; log 6). -/
structure OpenPulse where
  line : Line
  hold : Nat
  deriving DecidableEq, Repr

/-- The panel, the block's environment (R24). -/
structure Panel where
  /-- `PV`, `PX`, `PY`: absent is `PV = 0`, the physical position is unknown (R24, R110). -/
  head : Option Pos
  /-- `DOT[x][y]` for the dots a commit pulse has written, by rising `(x, y)`; a dot that is not
  listed holds the free value `Config.initialDot x y` (R110; log 7). -/
  dots : List ((Nat × Nat) × Bool)
  /-- The pulse in progress, if any (R111; log 6). The model's own field. -/
  openPulse : Option OpenPulse
  /-- How many step pulses came while the head was unknown: each moves it to another unknown place
  (R90, R112; log 8). The model's own field. -/
  blindSteps : Nat
  /-- How many commit pulses were held too short: each draws its outcome afresh (R114; log 9). The
  model's own field. -/
  shortCommits : Nat
  deriving DecidableEq, Repr

/-- The whole state: the block, the host and the panel. -/
structure State where
  /-- the parameters; `WIDTH` and `HEIGHT` are read-only constants (R3, R4, R18) -/
  cfg : Config
  /-- the one mode, Idle (R27, R129) -/
  mode : Mode
  /-- `HV`, `HX`, `HY`: absent is `HV = 0`, and then `HX`, `HY` hold no value (R10, R11, R12; log 4) -/
  head : Option Pos
  /-- `LINES` (R16) -/
  lines : Lines
  /-- `CUR`, the current buffer (R19) -/
  cur : Memory
  /-- `COM`, the committed buffer (R20) -/
  com : Memory
  /-- `TRACE`, all events since power-on reset, oldest first (R23) -/
  trace : List Event
  /-- the panel (R24) -/
  panel : Panel
  /-- the host: the command words it has still to present, in its order (R2, R14; log 2) -/
  pending : List Word
  /-- the host: the responses it has read, oldest first (R28, R56; log 3) -/
  responses : List Response
  deriving DecidableEq, Repr

/-- Why a step stops with a fault: never. Every fault of the spec is a response after which the
block is in Idle, ready for the next command (R28, R126), so it is a next state; no command hangs
(R101) and no access leaves the buffers (R36, R38). Safe (log 16). -/
inductive Fault where
  deriving DecidableEq, Repr

/-- Why a step is refused. -/
inductive Refusal where
  /-- The dispatch raises it for an instruction that has no meaning yet, by its mnemonic. Safe: no
  next state is claimed. No arm of this model raises it. -/
  | notModelled (mnemonic : String)
  deriving DecidableEq, Repr

/-- All five lines low (R27, D11; log 5). -/
def Lines.allLow : Lines where
  col := false
  row := false
  rst := false
  pol := false
  cmt := false

/-- The panel when the model begins: its head unknown, its dots any value (R27, R110). -/
def Panel.unknown : Panel where
  head := none
  dots := []
  openPulse := none
  blindSteps := 0
  shortCommits := 0

/-- The state after power-on reset of a block with these parameters (R27, R140): head undefined,
lines low, buffers all-zero, trace empty, mode Idle; no event is emitted (D25). -/
def State.powerOn (c : Config) : State where
  cfg := c
  mode := .idle
  head := none
  lines := Lines.allLow
  cur := []
  com := []
  trace := []
  panel := Panel.unknown
  pending := []
  responses := []

/-- The machine right after reset, with the parameters this hardware takes (R3, R4, R27). -/
def State.reset : State := State.powerOn Config.default

end Sys2Proof.Machine
end

