-- ==== Sys2Proof/Machine/Flags.lean ====
section
/-! DEFINITION. The block has no condition codes and no command sets a flag as a side effect (R15).
Its one-bit state is `HV` (R12) and the five line levels (R16), whose accessors stand here; and
what a command reports, its response (R56), is computed here. -/

namespace Sys2Proof.Machine

/-- `HV`: the pair `(HX, HY)` holds a value (R12). -/
def State.headValid (s : State) : Bool := s.head.isSome

/-- The level of one line (R16). -/
def Lines.get (ls : Lines) : Line → Bool
  | .col => ls.col
  | .row => ls.row
  | .rst => ls.rst
  | .pol => ls.pol
  | .cmt => ls.cmt

/-- The levels with one line driven to `b`, the other four as they were (R16). -/
def Lines.set (ls : Lines) (l : Line) (b : Bool) : Lines :=
  match l with
  | .col => { ls with col := b }
  | .row => { ls with row := b }
  | .rst => { ls with rst := b }
  | .pol => { ls with pol := b }
  | .cmt => { ls with cmt := b }

/-- The four-bit code of a status (R56, R120). -/
def Status.code : Status → BitVec 4
  | .ok => 0#4
  | .outOfRange => 1#4
  | .illegalCommand => 2#4
  | .headUndefined => 3#4

/-- The response as a word: `resp[31:28] = status`, `resp[1:0] = data`, all other bits 0 (R56). -/
def Response.word (r : Response) : Word := r.status.code ++ 0#26 ++ r.data

/-- The data of GPX: `data[1]` the previous bit, `data[0]` the current bit (R56, R82). -/
def pixelData (previous current : Bool) : BitVec 2 := BitVec.ofBool previous ++ BitVec.ofBool current

end Sys2Proof.Machine
end

