-- ==== Sys2Proof/Machine/Operands.lean ====
section
/-! DEFINITION. The one operand form that names a place, the coordinate pair `(x, y)`: the range
check (R121), the address decoder `Index`, `ByteOff`, `BitOff` (R30, R31), its inverse `Coord`
(R32), and the derived constants of a geometry (R5). All arithmetic is exact, on naturals (R43). -/

namespace Sys2Proof

/-- `NBITS = W * H`, the number of dots and of bits in each buffer (R5). -/
def Config.nbits (c : Config) : Nat := c.width * c.height

/-- `NBYTES = ceil(NBITS / 8)`, the number of bytes in each buffer (R5). -/
def Config.nbytes (c : Config) : Nat := (c.nbits + 7) / 8

/-- `NPAD`, the number of padding bits in the last byte of each buffer (R5). -/
def Config.npad (c : Config) : Nat := 8 * c.nbytes - c.nbits

/-- The pair names a dot of the panel: `x < W` and `y < H` (R30, R121). -/
def Config.inRange (c : Config) (x y : Nat) : Bool := decide (x < c.width) && decide (y < c.height)

/-- `Index(x, y) = x * H + y` (R30). -/
def Config.index (c : Config) (x y : Nat) : Nat := x * c.height + y

/-- `Coord(i) = (i div H, i mod H)`, the inverse of `Index` (R32, R39). -/
def Config.coord (c : Config) (i : Nat) : Machine.Pos := ⟨i / c.height, i % c.height⟩

/-- `ByteOff(i) = i div 8` (R31). -/
def byteOff (i : Nat) : Nat := i / 8

/-- `BitOff(i) = i mod 8`, bit 0 the least significant (R31). -/
def bitOff (i : Nat) : Nat := i % 8

end Sys2Proof
end

