-- ==== Sys2Proof/Machine/Memory.lean ====
section
/-! DEFINITION. Lists of keyed entries in canonical form (keys strictly rising), the bytes of a
buffer held in one (R19, R20, R44), and the bit accessor over them (R33, R34, R37). -/

namespace Sys2Proof.Machine

/-! ## Keyed lists -/

/-- The list without the entries of key `k`. -/
def Keyed.erase {κ α : Type} [BEq κ] (k : κ) (m : List (κ × α)) : List (κ × α) :=
  m.filter fun c => c.1 != k

/-- The list with an entry placed before the first key above `k`. -/
def Keyed.insert {κ α : Type} (lt : κ → κ → Bool) (k : κ) (v : α) : List (κ × α) → List (κ × α)
  | [] => [(k, v)]
  | c :: m => if lt k c.1 then (k, v) :: c :: m else c :: Keyed.insert lt k v m

/-- The list in which `k` has the value `v` and every other key what it had. -/
def Keyed.put {κ α : Type} [BEq κ] (lt : κ → κ → Bool) (k : κ) (v : α) (m : List (κ × α)) :
    List (κ × α) :=
  Keyed.insert lt k v (Keyed.erase k m)

/-! ## The bytes of a buffer -/

/-- `MemRead(buf, k, 1)`: the byte at offset `k` (00_scope.md section 5). -/
def Memory.read (m : Memory) (k : Nat) : Byte := (m.lookup k).getD 0x00#8

/-- The order of byte offsets. -/
def offsetLt (a b : Nat) : Bool := decide (a < b)

/-- `MemWrite(buf, k, 1, v)`: the byte `v` at offset `k` (00_scope.md section 5). Writing `0x00`,
what an unlisted offset reads as, removes the entry, so that equal contents are equal lists. -/
def Memory.write (m : Memory) (k : Nat) (v : Byte) : Memory :=
  if v = 0x00#8 then Keyed.erase k m else Keyed.put offsetLt k v m

/-- The canonical form: offsets strictly rising, no entry `0x00`. -/
abbrev Memory.wf (m : Memory) : Prop :=
  m.Pairwise (fun a b => a.1 < b.1) ∧ ∀ c ∈ m, c.2 ≠ 0x00#8

/-- Clear of all `NBYTES` bytes: the loop of CLR (R37, R81). -/
def Memory.clearAll (c : Config) (m : Memory) : Memory :=
  (List.range c.nbytes).foldl (fun m k => m.write k 0x00#8) m

/-- Copy of all `NBYTES` bytes of `src` into `dst`: the last loop of RDW (R37, R98). -/
def Memory.copyFrom (c : Config) (dst src : Memory) : Memory :=
  (List.range c.nbytes).foldl (fun d k => d.write k (src.read k)) dst

/-! ## The bit accessor -/

/-- `BitRead(buf, x, y)`, for `(x, y)` in range (R33). -/
def Memory.bitRead (c : Config) (m : Memory) (x y : Nat) : Bool :=
  (m.read (byteOff (c.index x y))).getLsbD (bitOff (c.index x y))

/-- The new byte of a one-bit write: `old OR m`, or `old AND (0xFF XOR m)`, with
`m = 1 << BitOff` (R34). -/
def bitUpdate (old : Byte) (b : Nat) (v : Bool) : Byte :=
  let m : Byte := 1#8 <<< b
  if v then old ||| m else old &&& (0xFF#8 ^^^ m)

/-- `BitWrite(buf, x, y, v)`, a read-modify-write of one byte, for `(x, y)` in range (R34). -/
def Memory.bitWrite (c : Config) (m : Memory) (x y : Nat) (v : Bool) : Memory :=
  let i := c.index x y
  m.write (byteOff i) (bitUpdate (m.read (byteOff i)) (bitOff i) v)

end Sys2Proof.Machine
end

