-- ==== Sys2Proof/Machine/Panel.lean ====
section
/-! DEFINITION. The panel as environment: its reaction to the events the block emits (R110 to
R114). It reacts once per complete pulse, a `High(l)` followed by the `Low(l)` of the same line
with no edge of any line between; `Delay` events between them are the pulse's hold (R111). -/

namespace Sys2Proof.Machine

/-- The order of dots by `(x, y)`, column first. -/
def dotLt (a b : Nat × Nat) : Bool :=
  decide (a.1 < b.1) || (decide (a.1 = b.1) && decide (a.2 < b.2))

/-- `DOT[x][y]`; a dot no commit pulse has written holds the free value it began with (R110). -/
def Panel.dot (p : Panel) (x y : Nat) : Bool := (p.dots.lookup (x, y)).getD (Config.initialDot x y)

/-- `DOT[x][y] <- b`. -/
def Panel.setDot (p : Panel) (x y : Nat) (b : Bool) : Panel :=
  { p with dots := Keyed.put dotLt (x, y) b p.dots }

/-- The canonical form of the dot list: keys strictly rising. -/
abbrev Panel.dotsWf (p : Panel) : Prop := p.dots.Pairwise (fun a b => dotLt a.1 b.1 = true)

/-- The move of a head at a column pulse: `((x + 1) mod W, 0)` (R71, R112). -/
def Pos.nextColumn (c : Config) (h : Pos) : Pos := ⟨(h.x + 1) % c.width, 0⟩

/-- The move of a head at a row pulse: `(x, (y + 1) mod H)` (R72, R112). -/
def Pos.nextRow (c : Config) (h : Pos) : Pos := ⟨h.x, (h.y + 1) % c.height⟩

/-- The reaction of the head to a step pulse: a known position moves, an unknown one becomes another
unknown one (R112; log 8). -/
def Panel.stepHead (move : Pos → Pos) (p : Panel) : Panel :=
  { p with
    head := p.head.map move
    blindSteps := if p.head.isNone then p.blindSteps + 1 else p.blindSteps }

/-- The dot a commit pulse addresses: the one under the physical head; with `PV = 0` any one dot of
the panel, a free value that stays the same until a step pulse moves the head (R90, R114, U8;
log 8). -/
def Panel.addressed (c : Config) (p : Panel) : Pos :=
  match p.head with
  | some h => h
  | none => c.coord (Config.blindDot p.blindSteps % c.nbits)

/-- What the addressed dot holds after a commit pulse of polarity `pol`: `pol` when the hold was
`T_COMMIT` or more; with a shorter hold its old value or `pol`, either one (R114, U3; log 9). -/
def Panel.committed (c : Config) (pol : Bool) (hold : Nat) (p : Panel) (a : Pos) : Bool :=
  if c.tCommit ≤ hold || Config.shortCommitFlips p.shortCommits then pol else p.dot a.x a.y

/-- The reaction to a commit pulse (R114). It moves no head. -/
def Panel.commitPulse (c : Config) (pol : Bool) (hold : Nat) (p : Panel) : Panel :=
  let a := p.addressed c
  let q := p.setDot a.x a.y (p.committed c pol hold a)
  { q with shortCommits := if hold < c.tCommit then p.shortCommits + 1 else p.shortCommits }

/-- The reaction to one complete pulse (R112, R113, R114). Polarity is a level, not a pulse. -/
def Panel.completePulse (c : Config) (pol : Bool) (l : Line) (hold : Nat) (p : Panel) : Panel :=
  match l with
  | .rst => { p with head := some ⟨0, 0⟩ }
  | .col => p.stepHead (Pos.nextColumn c)
  | .row => p.stepHead (Pos.nextRow c)
  | .cmt => p.commitPulse c pol hold
  | .pol => p

/-- The panel with no pulse in progress. -/
def Panel.closed (p : Panel) : Panel := { p with openPulse := none }

/-- The reaction to one event, `pol` being the level of the polarity line (R111). A rising edge of
a pulse line opens a pulse; a delay adds to its hold; the falling edge of the same line completes
it; any other edge abandons it. -/
def Panel.react (c : Config) (pol : Bool) (p : Panel) : Event → Panel
  | .high .pol => p.closed
  | .high l => { p with openPulse := some ⟨l, 0⟩ }
  | .delay t => { p with openPulse := p.openPulse.map fun o => { o with hold := o.hold + t } }
  | .low l =>
    match p.openPulse with
    | none => p
    | some o => if o.line = l then p.closed.completePulse c pol l o.hold else p.closed

end Sys2Proof.Machine
end

