-- ==== Sys2Proof/Machine/Ops.lean ====
section
/-! DEFINITION. The named operations every meaning is written from: events and pulses (R7, R73),
the internal operations `Rst`, `Stc`, `Str`, `Commit`, `Advance` (R70 to R72, R91, R95), the two
ways a command ends (R56, R126), the command port (R14, R40) and power-on reset (R140). -/

namespace Sys2Proof.Machine

/-! ## Field updates -/

/-- The state with the head registers as given (R10, R11, R12). -/
def State.setHead (s : State) (h : Option Pos) : State := { s with head := h }

/-- The state with `CUR` as given (R19). -/
def State.setCur (s : State) (m : Memory) : State := { s with cur := m }

/-- The state with `COM` as given (R20). -/
def State.setCom (s : State) (m : Memory) : State := { s with com := m }

/-! ## Events (R7, R23) -/

/-- The line levels after one event: `High(l)` sets `LINES.l` to 1, `Low(l)` to 0 (R16). -/
def Lines.after (ls : Lines) : Event → Lines
  | .high l => ls.set l true
  | .low l => ls.set l false
  | .delay _ => ls

/-- `emit(e)`: append `e` to `TRACE` and drive the line (00_scope.md section 5); the panel reacts
with the polarity line at its level before the event, which no falling edge of a commit pulse
changes (R111, R114). -/
def State.emit (s : State) (e : Event) : State :=
  { s with
    trace := s.trace ++ [e]
    lines := s.lines.after e
    panel := s.panel.react s.cfg s.lines.pol e }

/-- The events of a list, in order. -/
def State.emitAll (s : State) (es : List Event) : State := es.foldl State.emit s

/-- `Delay(t)` is emitted only for `t > 0` (R23, R73). -/
def delayEvents (t : Nat) : List Event := if 0 < t then [.delay t] else []

/-- `Pulse(l, t)` (R73). -/
def pulseEvents (l : Line) (t : Nat) : List Event := .high l :: delayEvents t ++ [.low l]

/-- `Pulse(l, t)` (R73). -/
def State.pulse (s : State) (l : Line) (t : Nat) : State := s.emitAll (pulseEvents l t)

/-- The level of the polarity line for a value (R91). -/
def polarityEvent (v : Bool) : Event := if v then .high .pol else .low .pol

/-! ## The internal operations -/

/-- `Rst`: `HX <- 0; HY <- 0; HV <- 1; Pulse(RST, T_RESET)` (R70). -/
def State.rstOp (s : State) : State := (s.setHead (some ⟨0, 0⟩)).pulse .rst s.cfg.tReset

/-- `Stc`: when `HV = 1`, `HX <- (HX + 1) mod W; HY <- 0`; always `Pulse(COL, T_STEP)` (R71). -/
def State.stcOp (s : State) : State :=
  (s.setHead (s.head.map (Pos.nextColumn s.cfg))).pulse .col s.cfg.tStep

/-- `Str`: when `HV = 1`, `HY <- (HY + 1) mod H`; always `Pulse(ROW, T_STEP)` (R72). -/
def State.strOp (s : State) : State :=
  (s.setHead (s.head.map (Pos.nextRow s.cfg))).pulse .row s.cfg.tStep

/-- `Commit(v)`: the polarity event, always, then `Pulse(CMT, T_COMMIT)` (R91). -/
def State.commitOp (s : State) (v : Bool) : State :=
  (s.emit (polarityEvent v)).pulse .cmt s.cfg.tCommit

/-- `Advance(y)`: `if y = H - 1 then Stc() else Str()` (R95). -/
def State.advanceOp (s : State) (y : Nat) : State :=
  if y + 1 = s.cfg.height then s.stcOp else s.strOp

/-! ## How a command ends (R56, R126) -/

/-- `return (status, data)`: the host reads the response; the block stores none (R28). -/
def State.answer (s : State) (st : Status) (data : BitVec 2) : State :=
  { s with responses := s.responses ++ [⟨st, data⟩] }

/-- `return (OK, 00)` (R56). -/
def State.answerOk (s : State) : State := s.answer .ok 0#2

/-- `raise <Fault>`, the entry of every fault: no state changed, no event emitted, the response
`(status, 00)`, the block in Idle (R126). There is no return from a fault: nothing was saved and
the next command executes as if the faulting one had not been sent (R127). -/
def State.raise (s : State) (f : Status) : State := s.answer f 0#2

/-! ## The command port (R14, R40) -/

/-- The host presents its next command word, if it has one (R2, R14). -/
def State.takeCommand (s : State) : Option (Word × State) :=
  match s.pending with
  | [] => none
  | w :: rest => some (w, { s with pending := rest })

/-- The host presents this word next, before the others it has still to present. -/
def State.present (s : State) (w : Word) : State := { s with pending := w :: s.pending }

/-! ## Power-on reset (R140, R151) -/

/-- The block is powered off and on again: its registers, lines, buffers and trace are at their
reset values (R27) and no event is emitted; "The panel is not reset by it: its dots and head keep
whatever they had" (R140, R151; log 12). The host keeps what it knows. No command does this. -/
def State.powerCycle (s : State) : State :=
  { State.powerOn s.cfg with
    panel := s.panel
    pending := s.pending
    responses := s.responses }

end Sys2Proof.Machine
end

