-- ==== Sys2Proof/Machine/FrameBuffer.lean ====
section
/-! DEFINITION. The frame-buffer commands SPX, CLR, GPX (41_frame_buffer.md). None emits an event;
the range check comes before any access (R121). -/

namespace Sys2Proof.Machine

/-- SPX x, y, v (R80). -/
def execSpx (x y : Nat) (v : Bool) (s : State) : Host.Outcome State Fault Refusal :=
  if s.cfg.inRange x y then .next (s.setCur (s.cur.bitWrite s.cfg x y v)).answerOk
  else .next (s.raise .outOfRange)

/-- CLR (R81). -/
def execClr (s : State) : Host.Outcome State Fault Refusal :=
  .next (s.setCur (s.cur.clearAll s.cfg)).answerOk

/-- GPX x, y (R82). -/
def execGpx (x y : Nat) (s : State) : Host.Outcome State Fault Refusal :=
  if s.cfg.inRange x y then
    .next (s.answer .ok (pixelData (s.com.bitRead s.cfg x y) (s.cur.bitRead s.cfg x y)))
  else .next (s.raise .outOfRange)

end Sys2Proof.Machine
end

