-- ==== Sys2Proof/Machine/ScanHead.lean ====
section
/-! DEFINITION. The scan-head commands RST, STC, STR (40_scan_head.md). None faults; each is
executed whatever `HV` is (R76). -/

namespace Sys2Proof.Machine

/-- RST (R70). -/
def execRst (s : State) : Host.Outcome State Fault Refusal := .next s.rstOp.answerOk

/-- STC (R71). -/
def execStc (s : State) : Host.Outcome State Fault Refusal := .next s.stcOp.answerOk

/-- STR (R72). -/
def execStr (s : State) : Host.Outcome State Fault Refusal := .next s.strOp.answerOk

end Sys2Proof.Machine
end

