-- ==== Sys2Proof/Machine/Sequencer.lean ====
section
/-! DEFINITION. The sequencer layer: the commit primitive CMT (42_commit.md) and the composite
commands FCL, AWR, RDW (43_driver_sequences.md). Each is one atomic command (R102); its faults are
raised before its first event and first state change (R126). -/

namespace Sys2Proof.Machine

/-- CMT v (R90). Executed whatever `HV` is. -/
def execCmt (v : Bool) (s : State) : Host.Outcome State Fault Refusal := .next (s.commitOp v).answerOk

/-- One cell of FCL: `Commit(0)`, then `Advance` (R96). -/
def State.fclCell (s : State) (i : Nat) : State := (s.commitOp false).advanceOp (s.cfg.coord i).y

/-- The loop of FCL over the scan order (R96). -/
def State.fclScan (s : State) : State := (List.range s.cfg.nbits).foldl State.fclCell s

/-- FCL: `Rst`, `Low(POL)`, then every cell; no buffer is read or written (R96). -/
def execFcl (s : State) : Host.Outcome State Fault Refusal :=
  .next (s.rstOp.emit (.low .pol)).fclScan.answerOk

/-- `while HX != x do Stc()`, with at most `n` rounds. It ends by itself within `W` rounds for
`x < W` (R101; log 14). -/
def State.stepColumnsTo (x : Nat) : Nat → State → State
  | 0, s => s
  | n + 1, s => if s.head.map Pos.x = some x then s else State.stepColumnsTo x n s.stcOp

/-- `while HY != y do Str()`, with at most `n` rounds. It ends by itself within `H` rounds for
`y < H` (R101; log 14). -/
def State.stepRowsTo (y : Nat) : Nat → State → State
  | 0, s => s
  | n + 1, s => if s.head.map Pos.y = some y then s else State.stepRowsTo y n s.strOp

/-- The walk of AWR to its target: columns first, then rows (R97). -/
def State.walkTo (s : State) (x y : Nat) : State :=
  State.stepRowsTo y s.cfg.height (State.stepColumnsTo x s.cfg.width s)

/-- AWR x, y, v: OutOfRange first, then HeadUndefined (R97, R125), then the walk and the commit. -/
def execAwr (x y : Nat) (v : Bool) (s : State) : Host.Outcome State Fault Refusal :=
  if s.cfg.inRange x y then
    if s.headValid then .next ((s.walkTo x y).commitOp v).answerOk
    else .next (s.raise .headUndefined)
  else .next (s.raise .outOfRange)

/-- `if c != p then Commit(c)` (R98). -/
def State.commitIfChanged (s : State) (current previous : Bool) : State :=
  if current = previous then s else s.commitOp current

/-- One cell of RDW: its two bits read, the commit if they differ, then `Advance` (R98). -/
def State.rdwCell (s : State) (i : Nat) : State :=
  let a := s.cfg.coord i
  (s.commitIfChanged (s.cur.bitRead s.cfg a.x a.y) (s.com.bitRead s.cfg a.x a.y)).advanceOp a.y

/-- The loop of RDW over the scan order (R39, R98). -/
def State.rdwScan (s : State) : State := (List.range s.cfg.nbits).foldl State.rdwCell s

/-- The last loop of RDW: `COM` becomes a copy of `CUR` (R98). -/
def State.commitBuffer (s : State) : State := s.setCom (s.com.copyFrom s.cfg s.cur)

/-- RDW: `Rst`, every cell, then the copy (R98). -/
def execRdw (s : State) : Host.Outcome State Fault Refusal :=
  .next s.rstOp.rdwScan.commitBuffer.answerOk

end Sys2Proof.Machine
end

