-- ==== Sys2Proof/Machine/Dispatch.lean ====
section
/-! DEFINITION. One arm per command of spec/opcode_table.json, each a call of its meaning. -/

namespace Sys2Proof.Machine

def exec (i : Instr) (s : State) : Host.Outcome State Fault Refusal :=
  match i with
  -- 40_scan_head.md
  | .rst => Sys2Proof.Machine.execRst s
  | .stc => Sys2Proof.Machine.execStc s
  | .str => Sys2Proof.Machine.execStr s
  -- 41_frame_buffer.md
  | .spx x y v => Sys2Proof.Machine.execSpx x y v s
  | .clr => Sys2Proof.Machine.execClr s
  | .gpx x y => Sys2Proof.Machine.execGpx x y s
  -- 42_commit.md and 43_driver_sequences.md
  | .cmt v => Sys2Proof.Machine.execCmt v s
  | .fcl => Sys2Proof.Machine.execFcl s
  | .awr x y v => Sys2Proof.Machine.execAwr x y v s
  | .rdw => Sys2Proof.Machine.execRdw s

end Sys2Proof.Machine
end

