-- ==== Sys2Proof/Machine/Step.lean ====
section
/-! DEFINITION. One step: the host presents its next command word, the decoder reads it, and the
block executes it to completion (R6, R40). With no command presented the block holds its state
(R129, R130). A word that selects no row faults with IllegalCommand before anything else (R123,
R125). -/

namespace Sys2Proof.Machine

def step (s : State) : Host.Outcome State Fault Refusal :=
  match s.takeCommand with
  | none => .next s
  | some (w, t) =>
    match decode w with
    | .ok i => exec i t
    | .error _ => .next (t.raise .illegalCommand)

/-- The state in which the host presents this command word next (log 2). -/
def State.withFetchWord (s : State) (nbits w : Nat) : State := s.present (tableWord nbits w)

end Sys2Proof.Machine
end

