-- ==== Sys2Proof/Safety.lean ====
section
/-! DEFINITION. The terms the claims use: runs of commands, the invariant of the whole machine,
agreement of the block with the panel (R115, R116), the event lists the spec writes out for each
command (R73, R91, R96 to R98), and what is counted in them (R100, R153). -/

namespace Sys2Proof

/-- `(OP, V, X, Y)` of a command, absent operands 0, as the assembler takes them (R53, R57). -/
def Instr.fields : Instr → Nat × Nat × Nat × Nat
  | .rst => (1, 0, 0, 0)
  | .stc => (2, 0, 0, 0)
  | .str => (3, 0, 0, 0)
  | .spx x y v => (4, v.toNat, x, y)
  | .clr => (5, 0, 0, 0)
  | .gpx x y => (6, 0, x, y)
  | .cmt v => (8, v.toNat, 0, 0)
  | .fcl => (9, 0, 0, 0)
  | .awr x y v => (10, v.toNat, x, y)
  | .rdw => (11, 0, 0, 0)

end Sys2Proof

namespace Sys2Proof.Machine

/-! ## Runs -/

/-- Commands executed one after another, each to completion (R40). -/
def execAll : List Instr → State → Host.Outcome State Fault Refusal
  | [], s => .next s
  | i :: is, s =>
    match exec i s with
    | .next t => execAll is t
    | .fault r => .fault r
    | .refused r => .refused r

/-! ## What stays -/

/-- The parameters, the mode and the host's remaining commands are as before. -/
def State.keepsRest (s t : State) : Prop :=
  t.cfg = s.cfg ∧ t.mode = s.mode ∧ t.pending = s.pending

/-- Both buffers are as before: the same data, so every byte reads as before. -/
def State.keepsBuffers (s t : State) : Prop :=
  (t.cur = s.cur ∧ t.com = s.com) ∧
    (∀ k, t.cur.read k = s.cur.read k) ∧ (∀ k, t.com.read k = s.com.read k)

/-- Nothing that a pulse could change has changed: the head, the lines, the trace, the panel. -/
def State.keepsOutputs (s t : State) : Prop :=
  t.head = s.head ∧ t.lines = s.lines ∧ t.trace = s.trace ∧ t.panel = s.panel

/-- The command ended with this one response (R56). -/
def State.answers (s t : State) (st : Status) (data : BitVec 2) : Prop :=
  t.responses = s.responses ++ [⟨st, data⟩]

/-! ## Dots as the buffers and the panel hold them -/

/-- The current bit of a dot, `BitRead(CUR, x, y)` (R33, R39). -/
def State.currentBit (s : State) (x y : Nat) : Bool := s.cur.bitRead s.cfg x y

/-- The previous bit of a dot, `BitRead(COM, x, y)` (R33, R39). -/
def State.previousBit (s : State) (x y : Nat) : Bool := s.com.bitRead s.cfg x y

/-- The physical polarity of a dot, `DOT[x][y]` (R24). -/
def State.dot (s : State) (x y : Nat) : Bool := s.panel.dot x y

/-- A dot of the panel (R30). -/
abbrev isDot (c : Config) (x y : Nat) : Prop := x < c.width ∧ y < c.height

/-- `COM` mirrors the panel (R116). -/
def State.mirrors (s : State) : Prop :=
  ∀ x y, isDot s.cfg x y → s.dot x y = s.previousBit x y

/-- The believed and the physical head agree, both unknown or both at one place (R115). -/
def State.headsAgree (s : State) : Prop := s.panel.head = s.head

/-- The two bits of cell number `i` of the scan differ (R98). -/
def State.cellChanged (s : State) (i : Nat) : Bool :=
  s.currentBit (s.cfg.coord i).x (s.cfg.coord i).y != s.previousBit (s.cfg.coord i).x (s.cfg.coord i).y

/-- `d`, the number of dots where `CUR` and `COM` differ (R98, R100). -/
def State.changedDots (s : State) : Nat := (List.range s.cfg.nbits).countP s.cellChanged

/-! ## The event lists of the spec -/

/-- The events of one pulse (R73): rising edge, the hold if there is one, falling edge. -/
def Expect.pulse (l : Line) (t : Nat) : List Event :=
  if t = 0 then [.high l, .low l] else [.high l, .delay t, .low l]

/-- The events of one commit (R91): polarity first, then the commit pulse. -/
def Expect.commit (c : Config) (v : Bool) : List Event :=
  [if v then .high .pol else .low .pol] ++ Expect.pulse .cmt c.tCommit

/-- The events of the step after cell number `i` (R95): a column pulse at the last row of a
column, else a row pulse. -/
def Expect.advance (c : Config) (i : Nat) : List Event :=
  if i % c.height + 1 = c.height then Expect.pulse .col c.tStep else Expect.pulse .row c.tStep

/-- The events of FCL (R96). -/
def Expect.fullClear (c : Config) : List Event :=
  Expect.pulse .rst c.tReset ++ [.low .pol] ++
    (List.range c.nbits).flatMap fun i => Expect.commit c false ++ Expect.advance c i

/-- The events of the cells `is` of RDW for the buffers of `s` (R98). -/
def Expect.redrawCells (s : State) (is : List Nat) : List Event :=
  is.flatMap fun i =>
    (if s.cellChanged i then
      Expect.commit s.cfg (s.currentBit (s.cfg.coord i).x (s.cfg.coord i).y) else []) ++
      Expect.advance s.cfg i

/-- The events of RDW from `s` (R98). -/
def Expect.redraw (s : State) : List Event :=
  Expect.pulse .rst s.cfg.tReset ++ Expect.redrawCells s (List.range s.cfg.nbits)

/-- How many column steps AWR takes from `h` to column `x`: `(x - hx) mod W` (R97). -/
def Expect.columnSteps (c : Config) (h : Pos) (x : Nat) : Nat := (x + c.width - h.x) % c.width

/-- How many row steps AWR then takes to row `y`: `y` when it took a column step, else
`(y - hy) mod H` (R97). -/
def Expect.rowSteps (c : Config) (h : Pos) (x y : Nat) : Nat :=
  if Expect.columnSteps c h x = 0 then (y + c.height - h.y) % c.height else y

/-- `n` pulses of one step line. -/
def Expect.steps (c : Config) (l : Line) (n : Nat) : List Event :=
  (List.replicate n (Expect.pulse l c.tStep)).flatten

/-- The events of AWR x, y, v with the head at `h` (R97). -/
def Expect.addressedWrite (c : Config) (h : Pos) (x y : Nat) (v : Bool) : List Event :=
  Expect.steps c .col (Expect.columnSteps c h x) ++ Expect.steps c .row (Expect.rowSteps c h x y) ++
    Expect.commit c v

/-! ## Counting events -/

/-- How many pulses of a line a list of events begins: its rising edges. -/
def pulsesOf (l : Line) (es : List Event) : Nat := es.count (.high l)

/-- The step pulses of either kind. -/
def stepPulses (es : List Event) : Nat := pulsesOf .col es + pulsesOf .row es

/-- The duration an event asks for. -/
def Event.duration : Event → Nat
  | .delay t => t
  | _ => 0

/-- The requested delay of a list of events, in microseconds (R100, R153). -/
def requestedDelay (es : List Event) : Nat := (es.map Event.duration).sum

/-! ## The lines and the panel as driven by events -/

/-- The line levels and the panel after one event (R16, R111). -/
def Driven.after (c : Config) (d : Lines × Panel) (e : Event) : Lines × Panel :=
  (d.1.after e, d.2.react c d.1.pol e)

/-- The line levels and the panel after a list of events. -/
def Driven.run (c : Config) (d : Lines × Panel) (es : List Event) : Lines × Panel :=
  es.foldl (Driven.after c) d

/-! ## The shape of a trace (R111) -/

/-- One event of a trace in which `p` is the line whose pulse is in progress. None is malformed. -/
def PulseShape.after : Option Line → Event → Option (Option Line)
  | none, .high .pol => some none
  | none, .low .pol => some none
  | none, .high l => some (some l)
  | none, _ => none
  | some l, .delay t => if 0 < t then some (some l) else none
  | some l, .low k => if k = l then some none else none
  | some _, .high _ => none

/-- The trace is a concatenation of complete, non-overlapping pulses and of polarity level events
that stand outside every pulse (R111); a `Delay` stands inside a pulse and is of a positive
duration (R23). -/
def wellPulsed (es : List Event) : Prop := es.foldlM PulseShape.after none = some none

/-! ## The invariant -/

/-- A head that holds a position holds one of the panel (R10, R11, R24). -/
abbrev headIn (c : Config) : Option Pos → Prop
  | none => True
  | some h => isDot c h.x h.y

/-- A buffer in canonical form, with no byte beyond `NBYTES` and its padding bits 0 (R19, R22). -/
abbrev Memory.fits (c : Config) (m : Memory) : Prop :=
  m.wf ∧ (∀ e ∈ m, e.1 < c.nbytes) ∧
    ∀ j < c.npad, (m.read (byteOff (c.nbits + j))).getLsbD (bitOff (c.nbits + j)) = false

/-- The dot list in canonical form, with no place beyond the panel (R24). -/
abbrev Panel.dotsFit (c : Config) (p : Panel) : Prop :=
  p.dotsWf ∧ ∀ d ∈ p.dots, isDot c d.1.1 d.1.2

/-- No pulse is in progress on a line: only the polarity line may be high between commands (R73,
R91). -/
abbrev Lines.atRest (ls : Lines) : Prop :=
  ls.col = false ∧ ls.row = false ∧ ls.rst = false ∧ ls.cmt = false

/-- What every step keeps: the parameters within the spec's bounds (R3, R4), both heads on the
panel (R10, R11, R24, R75), both buffers well formed (R19, R20, R22), the dot list well formed, no
pulse in progress (R111), the lines at rest, the trace a sequence of whole pulses (R111), and each
line at the level its last event gave it (R16). -/
structure State.Inv (s : State) : Prop where
  cfgWf : s.cfg.wf
  headIn : headIn s.cfg s.head
  panelHeadIn : Machine.headIn s.cfg s.panel.head
  curFits : s.cur.fits s.cfg
  comFits : s.com.fits s.cfg
  dotsFit : s.panel.dotsFit s.cfg
  noPulse : s.panel.openPulse = none
  atRest : s.lines.atRest
  wholePulses : wellPulsed s.trace
  levels : s.lines = s.trace.foldl Lines.after Lines.allLow

end Sys2Proof.Machine
end

