-- ==== Sys2Proof/Certificates/Slice0/Obligations.lean ====
section
/-! DEFINITION. The statements for the provers, from the numbered rules of spec/. Each docstring
names the rule or section it formalises. -/

open Sys2Proof Sys2Proof.Machine

/-! ## Encoding and decoding (30_encoding.md) -/

/-- The worked encodings of 30_encoding.md (after R58) decode to their commands: one word of every
row of R53, operands at both ends of their fields. -/
def Obligations.WorkedEncodingsDecode : Prop :=
  decode 0x10000000#32 = .ok .rst ∧
  decode 0x20000000#32 = .ok .stc ∧
  decode 0x30000000#32 = .ok .str ∧
  decode 0x41005003#32 = .ok (.spx 5 3 true) ∧
  decode 0x4001F00F#32 = .ok (.spx 31 15 false) ∧
  decode 0x41020000#32 = .ok (.spx 32 0 true) ∧
  decode 0x50000000#32 = .ok .clr ∧
  decode 0x60005003#32 = .ok (.gpx 5 3) ∧
  decode 0x81000000#32 = .ok (.cmt true) ∧
  decode 0x80000000#32 = .ok (.cmt false) ∧
  decode 0x90000000#32 = .ok .fcl ∧
  decode 0xA1003002#32 = .ok (.awr 3 2 true) ∧
  decode 0xA1FFF000#32 = .ok (.awr 4095 0 true) ∧
  decode 0xB0000000#32 = .ok .rdw

/-- Decoding the word of any well-formed command gives it back, with every operand at every value
its field admits (R50 to R53, R57). -/
def Obligations.DecodeOfEncode : Prop :=
  ∀ i : Instr, i.wf → decode (encode i) = .ok i

/-- The other direction: a word that decodes is the encoding of what it decodes to, and that
command is well formed, so no bit of a legal word is ignored (R51, R54). -/
def Obligations.EncodeOfDecode : Prop :=
  ∀ (w : Word) (i : Instr), decode w = .ok i → encode i = w ∧ i.wf

/-- The decoder, which reads fields and formats, agrees with the match and mask words of the
opcode map: every word either selects exactly one row, and decodes to that row's command, or
selects none and is illegal (R53, R54). -/
def Obligations.EveryWordSelectsOneRowOrIsIllegal : Prop :=
  ∀ w : Word,
    (∃ o : Opcode, decode w = .ok (o.instr w) ∧ w &&& o.mask = o.pattern ∧
      ∀ o' : Opcode, w &&& o'.mask = o'.pattern → o' = o) ∨
    ((∃ e, decode w = .error e) ∧ ∀ o : Opcode, w &&& o.mask ≠ o.pattern)

/-- The illegal words are exactly those of R54: a reserved opcode, a non-zero reserved bit, or a
non-zero field the format does not use. -/
def Obligations.IllegalExactlyForTheListedReasons : Prop :=
  ∀ w : Word, (∃ e, decode w = .error e) ↔
    w.toNat / 2 ^ 28 ∈ [0, 7, 12, 13, 14, 15] ∨
    w.toNat / 2 ^ 25 % 8 ≠ 0 ∨
    (w.toNat / 2 ^ 28 ∈ [1, 2, 3, 5, 9, 11] ∧ w.toNat % 2 ^ 25 ≠ 0) ∨
    (w.toNat / 2 ^ 28 = 8 ∧ w.toNat % 2 ^ 24 ≠ 0) ∨
    (w.toNat / 2 ^ 28 = 6 ∧ w.toNat / 2 ^ 24 % 2 ≠ 0)

/-- The assembler's formula `cmd = (OP << 28) | (v << 24) | (x << 12) | y`, absent operands 0, on
numbers (R57). -/
def Obligations.AssemblyFormula : Prop :=
  ∀ i : Instr, i.wf →
    (encode i).toNat =
      i.fields.1 * 2 ^ 28 + i.fields.2.1 * 2 ^ 24 + i.fields.2.2.1 * 2 ^ 12 + i.fields.2.2.2

/-- The response as a word: the status code in bits 31 to 28, the data in bits 1 and 0, every
other bit 0; the codes are 0 OK, 1 OutOfRange, 2 IllegalCommand, 3 HeadUndefined (R56). -/
def Obligations.ResponseWordLayout : Prop :=
  (∀ r : Response, r.word.toNat = r.status.code.toNat * 2 ^ 28 + r.data.toNat) ∧
    Status.ok.code = 0#4 ∧ Status.outOfRange.code = 1#4 ∧ Status.illegalCommand.code = 2#4 ∧
    Status.headUndefined.code = 3#4

/-! ## The address decoder and the bit accessor (20_memory.md) -/

/-- `Index` is a bijection from the dots onto the indices below `NBITS`, with inverse `Coord`
(R32), and under the bounds of R3 it fits 22 bits (R43). -/
def Obligations.IndexIsBijective : Prop :=
  ∀ c : Config,
    (∀ x y, x < c.width → y < c.height →
      c.index x y < c.nbits ∧ c.coord (c.index x y) = ⟨x, y⟩ ∧ (c.wf → c.index x y < 2 ^ 22)) ∧
    (∀ i, i < c.nbits → (c.coord i).x < c.width ∧ (c.coord i).y < c.height ∧
      c.index (c.coord i).x (c.coord i).y = i)

/-- `ByteOff(i) = i div 8`, `BitOff(i) = i mod 8`: the byte lies in the buffer, the bit in the
byte, the two give the index back; in binary `i` shifted right by 3, and `i[2:0]`. The bit of a dot
is bit `BitOff` of byte `ByteOff`, counted from the least significant (R31). -/
def Obligations.ByteAndBitOffsets : Prop :=
  (∀ (c : Config) (i : Nat), i < c.nbits →
    byteOff i = i / 8 ∧ bitOff i = i % 8 ∧ byteOff i + 1 ≤ c.nbytes ∧ bitOff i ≤ 7 ∧
    8 * byteOff i + bitOff i = i ∧ byteOff i = i >>> 3 ∧ bitOff i = i &&& 7) ∧
  ∀ (c : Config) (m : Memory) (x y : Nat), isDot c x y →
    (m.bitRead c x y = true ↔
      (m.read (byteOff (c.index x y))).toNat / 2 ^ bitOff (c.index x y) % 2 = 1)

/-- `BitWrite` sets the bit of its dot to the value, leaves the other seven bits of the byte and
every other byte, hence every other dot, as they were (R34). -/
def Obligations.BitWriteChangesOneBit : Prop :=
  ∀ (c : Config) (m : Memory) (x y : Nat) (v : Bool), x < c.width → y < c.height →
    (m.bitWrite c x y v).bitRead c x y = v ∧
    (∀ x' y', x' < c.width → y' < c.height → (x', y') ≠ (x, y) →
      (m.bitWrite c x y v).bitRead c x' y' = m.bitRead c x' y') ∧
    (∀ b, b < 8 → b ≠ bitOff (c.index x y) →
      ((m.bitWrite c x y v).read (byteOff (c.index x y))).getLsbD b =
        (m.read (byteOff (c.index x y))).getLsbD b) ∧
    (∀ k, k ≠ byteOff (c.index x y) → (m.bitWrite c x y v).read k = m.read k)

/-! ## One step (00_scope.md R6, 20_memory.md R40, 60_exceptions.md) -/

/-- When the word the host presents decodes to a command, the step is that command, executed on the
state without the word taken (R6, R40). -/
def Obligations.StepRunsDecodedCommand : Prop :=
  ∀ (s : State) (w : Word) (rest : List Word) (i : Instr),
    s.pending = w :: rest → decode w = .ok i → step s = exec i { s with pending := rest }

/-- A word that decodes to no command faults with IllegalCommand: nothing is changed, no event is
emitted, the response is `(2, 00)` (R123, R126, decisions D4, D18). -/
def Obligations.IllegalCommandFaults : Prop :=
  ∀ (s : State) (w : Word) (rest : List Word) (e : Illegal),
    s.pending = w :: rest → decode w = .error e →
    step s = .next { s with
      pending := rest, responses := s.responses ++ [⟨.illegalCommand, 0#2⟩] }

/-- With no command presented the block holds its state (R130 H6; the step for an empty port is the
model's, log 2). -/
def Obligations.IdleStepHoldsState : Prop :=
  ∀ s : State, s.pending = [] → step s = .next s

/-- No command hangs and none stops the machine: every step answers a next state (R101, R126). -/
def Obligations.EveryStepCompletes : Prop :=
  (∀ s : State, ∃ t, step s = .next t) ∧ ∀ (i : Instr) (s : State), ∃ t, exec i s = .next t

/-- Every presented command is answered by exactly one response, with data `00` unless it is a GPX
that ended OK (R56, decision D5). -/
def Obligations.OneResponsePerCommand : Prop :=
  ∀ (s t : State) (w : Word) (rest : List Word), s.pending = w :: rest → step s = .next t →
    ∃ r : Response, t.responses = s.responses ++ [r] ∧ t.pending = rest ∧
      (r.status ≠ .ok → r.data = 0#2) ∧
      ((∀ x y, decode w ≠ .ok (.gpx x y)) → r.data = 0#2)

/-- A command whose response is not OK has changed nothing but that response, and its data is `00`
(R126, R102, decision D18). -/
def Obligations.FaultsChangeNothing : Prop :=
  ∀ (s t : State) (i : Instr) (r : Response), exec i s = .next t →
    t.responses = s.responses ++ [r] → r.status ≠ .ok →
    r.data = 0#2 ∧ t = { s with responses := s.responses ++ [r] }

/-! ## Reset (70_reset_and_hazards.md, 10_state.md R27) -/

/-- The state right after power-on reset, as the table of R27 gives it: head undefined, lines low
(decision D11), buffers all-zero (decision D12), trace empty, mode Idle, the physical head unknown,
every dot its free value; with the parameters of R3 and R4 (decisions D7, D8). -/
def Obligations.ResetValues : Prop :=
  State.reset.head = none ∧ State.reset.headValid = false ∧
  (∀ l, State.reset.lines.get l = false) ∧
  (∀ k, State.reset.cur.read k = 0x00#8) ∧ (∀ k, State.reset.com.read k = 0x00#8) ∧
  State.reset.trace = [] ∧ State.reset.mode = .idle ∧ State.reset.panel.head = none ∧
  (∀ x y, State.reset.dot x y = Config.initialDot x y) ∧
  State.reset.cfg.width = 32 ∧ State.reset.cfg.height = 16 ∧ State.reset.cfg.tStep = 1 ∧
  State.reset.cfg.tCommit = 600 ∧ State.reset.cfg.tReset = 0

/-- The invariant and the agreement of the heads hold after power-on reset, for every geometry and
durations the spec admits (R27, R115). -/
def Obligations.PowerOnSatisfiesInv : Prop :=
  (∀ c : Config, c.wf → (State.powerOn c).Inv ∧ (State.powerOn c).headsAgree) ∧ State.reset.Inv

/-- Power-on reset of a running block (R140, R151): its registers, lines, buffers and trace are at
their reset values, no event is emitted; the panel is not reset by it, its dots and its head keep
whatever they had; the invariant is kept. -/
def Obligations.PowerCycleResetsBlockNotPanel : Prop :=
  ∀ s : State,
    s.powerCycle.head = none ∧ s.powerCycle.lines = Lines.allLow ∧
    (∀ k, s.powerCycle.cur.read k = 0x00#8) ∧ (∀ k, s.powerCycle.com.read k = 0x00#8) ∧
    s.powerCycle.trace = [] ∧ s.powerCycle.mode = .idle ∧ s.powerCycle.cfg = s.cfg ∧
    s.powerCycle.panel = s.panel ∧ (∀ x y, s.powerCycle.dot x y = s.dot x y) ∧ (s.Inv → s.powerCycle.Inv)

/-! ## Scan-head commands (40_scan_head.md) -/

/-- RST from every state (R70): the head is the origin, one reset pulse is emitted, the reset line
ends low, the other four lines, both buffers and the rest stay, the response is `(OK, 00)`. -/
def Obligations.RstCompletes : Prop :=
  decode 0x10000000#32 = .ok .rst ∧
  ∀ s : State, ∃ t, exec .rst s = .next t ∧
    t.head = some ⟨0, 0⟩ ∧
    t.trace = s.trace ++ Expect.pulse .rst s.cfg.tReset ∧
    t.lines = { s.lines with rst := false } ∧
    s.keepsBuffers t ∧ s.keepsRest t ∧ s.answers t .ok 0#2

/-- STC from every state (R71): a defined head goes to `((HX + 1) mod W, 0)`, an undefined one stays
undefined, one column pulse is emitted either way. -/
def Obligations.StcCompletes : Prop :=
  decode 0x20000000#32 = .ok .stc ∧
  ∀ s : State, ∃ t, exec .stc s = .next t ∧
    (∀ h, s.head = some h → t.head = some ⟨(h.x + 1) % s.cfg.width, 0⟩) ∧
    (s.head = none → t.head = none) ∧
    t.trace = s.trace ++ Expect.pulse .col s.cfg.tStep ∧
    t.lines = { s.lines with col := false } ∧
    s.keepsBuffers t ∧ s.keepsRest t ∧ s.answers t .ok 0#2

/-- STR from every state (R72): a defined head goes to `(HX, (HY + 1) mod H)`, an undefined one
stays undefined, one row pulse is emitted either way. -/
def Obligations.StrCompletes : Prop :=
  decode 0x30000000#32 = .ok .str ∧
  ∀ s : State, ∃ t, exec .str s = .next t ∧
    (∀ h, s.head = some h → t.head = some ⟨h.x, (h.y + 1) % s.cfg.height⟩) ∧
    (s.head = none → t.head = none) ∧
    t.trace = s.trace ++ Expect.pulse .row s.cfg.tStep ∧
    t.lines = { s.lines with row := false } ∧
    s.keepsBuffers t ∧ s.keepsRest t ∧ s.answers t .ok 0#2

/-- `k` STC from a head on the panel give `((x + k) mod W, 0)` for `k >= 1`; in particular `W` of
them return the column (R75 items 1, 2, 4, 7). -/
def Obligations.ColumnStepsWrapAround : Prop :=
  ∀ (s : State) (h : Pos) (k : Nat), s.head = some h → isDot s.cfg h.x h.y →
    ∃ t, execAll (List.replicate k .stc) s = .next t ∧
      t.head = some (if k = 0 then h else ⟨(h.x + k) % s.cfg.width, 0⟩) ∧
      headIn s.cfg t.head ∧
      (k = s.cfg.width → t.head = some ⟨h.x, 0⟩)

/-- `k` STR from a head on the panel give `(x, (y + k) mod H)`; in particular `H` of them return the
head (R75 items 1, 3, 4). -/
def Obligations.RowStepsWrapAround : Prop :=
  ∀ (s : State) (h : Pos) (k : Nat), s.head = some h → isDot s.cfg h.x h.y →
    ∃ t, execAll (List.replicate k .str) s = .next t ∧
      t.head = some ⟨h.x, (h.y + k) % s.cfg.height⟩ ∧
      headIn s.cfg t.head ∧
      (k = s.cfg.height → t.head = some h)

/-- After one RST, `x` STC followed by `y` STR reach `(x, y)`, from any state; the reverse order
reaches `(x, 0)` when at least one column step is made (R75 items 5, 6). -/
def Obligations.StepsReachEveryDot : Prop :=
  ∀ (s : State) (x y : Nat), x < s.cfg.width → y < s.cfg.height →
    (∃ t, execAll (.rst :: (List.replicate x .stc ++ List.replicate y .str)) s = .next t ∧
      t.head = some ⟨x, y⟩) ∧
    (0 < x → ∃ t, execAll (.rst :: (List.replicate y .str ++ List.replicate x .stc)) s = .next t ∧
      t.head = some ⟨x, 0⟩)

/-! ## Frame-buffer commands (41_frame_buffer.md) -/

/-- SPX in range (R80): one bit of one byte of `CUR` takes the value, every other bit and byte, and
everything else, stays, no event is emitted; out of range nothing changes and the response is
`(OutOfRange, 00)`. The words of its row decode to it, operands unsigned. -/
def Obligations.SpxCompletes : Prop :=
  (∀ w : Word, w &&& 0xFE000000#32 = 0x40000000#32 →
    decode w = .ok (.spx (xField w).toNat (yField w).toNat (vField w))) ∧
  (∀ (s : State) (x y : Nat) (v : Bool), x < s.cfg.width → y < s.cfg.height →
    ∃ t, exec (.spx x y v) s = .next t ∧
      (t.cur.read (byteOff (s.cfg.index x y))).getLsbD (bitOff (s.cfg.index x y)) = v ∧
      (∀ b, b < 8 → b ≠ bitOff (s.cfg.index x y) →
        (t.cur.read (byteOff (s.cfg.index x y))).getLsbD b =
          (s.cur.read (byteOff (s.cfg.index x y))).getLsbD b) ∧
      (∀ k, k ≠ byteOff (s.cfg.index x y) → t.cur.read k = s.cur.read k) ∧
      t.com = s.com ∧ (∀ k, t.com.read k = s.com.read k) ∧
      s.keepsOutputs t ∧ s.keepsRest t ∧ s.answers t .ok 0#2) ∧
  (∀ (s : State) (x y : Nat) (v : Bool), s.cfg.width ≤ x ∨ s.cfg.height ≤ y →
    exec (.spx x y v) s = .next { s with responses := s.responses ++ [⟨.outOfRange, 0#2⟩] })

/-- CLR from every state (R81): every byte of `CUR`, padding included, is `0x00`; `COM`, the head,
the lines, the trace and the rest stay. -/
def Obligations.ClrCompletes : Prop :=
  decode 0x50000000#32 = .ok .clr ∧
  ∀ s : State, ∃ t, exec .clr s = .next t ∧
    (∀ k, k < s.cfg.nbytes → t.cur.read k = 0x00#8) ∧
    (∀ k, s.cfg.nbytes ≤ k → t.cur.read k = s.cur.read k) ∧
    t.com = s.com ∧ (∀ k, t.com.read k = s.com.read k) ∧
    s.keepsOutputs t ∧ s.keepsRest t ∧ s.answers t .ok 0#2

/-- GPX in range (R82, the spec's decision D15): the response is OK with `data[0]` the current and
`data[1]` the previous bit, and nothing else changes. -/
def Obligations.GpxCompletes : Prop :=
  ∀ (s : State) (x y : Nat), x < s.cfg.width → y < s.cfg.height →
    ∃ d : BitVec 2, exec (.gpx x y) s = .next { s with responses := s.responses ++ [⟨.ok, d⟩] } ∧
      d.getLsbD 0 = s.currentBit x y ∧ d.getLsbD 1 = s.previousBit x y

/-- Two SPX to different dots commute: either order ends in the same state. Two SPX to the same dot
leave the later value (R83, R41). -/
def Obligations.PixelWritesCommute : Prop :=
  ∀ (s : State) (x y x' y' : Nat) (v v' : Bool), s.cur.wf →
    isDot s.cfg x y → isDot s.cfg x' y' →
    ((x, y) ≠ (x', y') →
      ∃ t, execAll [.spx x y v, .spx x' y' v'] s = .next t ∧
        execAll [.spx x' y' v', .spx x y v] s = .next t) ∧
    ∃ t, execAll [.spx x y v, .spx x y v'] s = .next t ∧ t.currentBit x y = v' ∧
      ∃ u, exec (.spx x y v') s = .next u ∧ t.cur = u.cur

/-- SPX, GPX and AWR with either coordinate at or beyond its bound fault with OutOfRange: both
buffers, the head and everything else unchanged, no event, response `(1, 00)`, whatever `HV` is
(R121). -/
def Obligations.OutOfRangeFaults : Prop :=
  ∀ (s : State) (x y : Nat) (v : Bool), s.cfg.width ≤ x ∨ s.cfg.height ≤ y →
    ∀ i ∈ [Instr.spx x y v, .gpx x y, .awr x y v],
      exec i s = .next { s with responses := s.responses ++ [⟨.outOfRange, 0#2⟩] }

/-- The 12-bit image of a negative coordinate, bit 11 set, is out of range for SPX, GPX and AWR on
every panel the spec admits (R59, decision D6). -/
def Obligations.NegativeImagesAreOutOfRange : Prop :=
  ∀ (s : State) (f : BitVec 12) (n : Nat) (v : Bool), s.cfg.wf → f.getLsbD 11 = true →
    ∀ i ∈ [Instr.spx f.toNat n v, .spx n f.toNat v, .gpx f.toNat n, .gpx n f.toNat,
        .awr f.toNat n v, .awr n f.toNat v],
      exec i s = .next { s with responses := s.responses ++ [⟨.outOfRange, 0#2⟩] }

/-! ## Commit (42_commit.md) -/

/-- CMT from every state emits the events of `Commit` (R91): the polarity line takes the value
first, always, then one commit pulse; the polarity line ends at the value, the commit line low; the
head, the buffers and the rest stay; the dot under the physical head takes the value. -/
def Obligations.CmtCompletes : Prop :=
  ∀ (s : State) (v : Bool), ∃ t, exec (.cmt v) s = .next t ∧
    t.head = s.head ∧
    t.trace = s.trace ++ ((if v then .high .pol else .low .pol) :: Expect.pulse .cmt s.cfg.tCommit) ∧
    t.lines = { s.lines with pol := v, cmt := false } ∧
    (∀ h, s.panel.head = some h → t.dot h.x h.y = v) ∧
    s.keepsBuffers t ∧ s.keepsRest t ∧ s.answers t .ok 0#2

/-! ## Composite commands (43_driver_sequences.md) -/

/-- FCL from every state (R96): exactly the events of its pseudocode, the head at the origin, no
buffer touched, all five lines low when the pulse lines were at rest before. -/
def Obligations.FclCompletes : Prop :=
  ∀ s : State, ∃ t, exec .fcl s = .next t ∧
    t.head = some ⟨0, 0⟩ ∧
    t.trace = s.trace ++ Expect.fullClear s.cfg ∧
    (s.lines.atRest → t.lines = Lines.allLow) ∧
    s.keepsBuffers t ∧ s.keepsRest t ∧ s.answers t .ok 0#2

/-- AWR to a dot of the panel with a defined head (R97, R101): the column loop runs
`(x - hx) mod W` times, the row loop `y` or `(y - hy) mod H` times, then one commit; the head is at
`(x, y)`, no buffer is touched, the polarity line is at the value. -/
def Obligations.AwrCompletes : Prop :=
  ∀ (s : State) (h : Pos) (x y : Nat) (v : Bool), s.head = some h → isDot s.cfg h.x h.y →
    x < s.cfg.width → y < s.cfg.height →
    ∃ t, exec (.awr x y v) s = .next t ∧
      t.head = some ⟨x, y⟩ ∧
      t.trace = s.trace ++ Expect.addressedWrite s.cfg h x y v ∧
      t.lines.pol = v ∧ (s.lines.atRest → t.lines.atRest) ∧
      s.keepsBuffers t ∧ s.keepsRest t ∧ s.answers t .ok 0#2

/-- AWR to a dot of the panel with `HV = 0` faults with HeadUndefined before any event (R124,
decision D10). -/
def Obligations.AwrHeadUndefinedFaults : Prop :=
  ∀ (s : State) (x y : Nat) (v : Bool), s.head = none → x < s.cfg.width → y < s.cfg.height →
    exec (.awr x y v) s = .next { s with responses := s.responses ++ [⟨.headUndefined, 0#2⟩] }

/-- RDW from every state (R98): exactly the events of its pseudocode, the head at the origin, every
byte of `COM` a copy of `CUR`'s, `CUR` unchanged; the polarity line has the value of the last
changed dot in scan order, or its old level if no dot changed; the pulse lines end at rest. -/
def Obligations.RdwCompletes : Prop :=
  ∀ s : State, ∃ t, exec .rdw s = .next t ∧
    t.head = some ⟨0, 0⟩ ∧
    t.trace = s.trace ++ Expect.redraw s ∧
    (∀ k, k < s.cfg.nbytes → t.com.read k = s.cur.read k) ∧
    (∀ k, s.cfg.nbytes ≤ k → t.com.read k = s.com.read k) ∧
    t.cur = s.cur ∧ (∀ k, t.cur.read k = s.cur.read k) ∧
    (s.lines.atRest → t.lines.atRest) ∧
    ((∀ j, j < s.cfg.nbits → s.cellChanged j = false) → t.lines.pol = s.lines.pol) ∧
    (∀ i, i < s.cfg.nbits → s.cellChanged i = true →
      (∀ j, i < j → j < s.cfg.nbits → s.cellChanged j = false) →
      t.lines.pol = s.currentBit (s.cfg.coord i).x (s.cfg.coord i).y) ∧
    s.keepsRest t ∧ s.answers t .ok 0#2

/-- The costs of FCL (R100, R153): one reset pulse, `W` column steps, `W * (H - 1)` row steps,
`NBITS` commit pulses, and the requested delay. -/
def Obligations.FclCosts : Prop :=
  ∀ s : State, s.cfg.wf → ∃ t es, exec .fcl s = .next t ∧ t.trace = s.trace ++ es ∧
    pulsesOf .rst es = 1 ∧ pulsesOf .col es = s.cfg.width ∧
    pulsesOf .row es = s.cfg.width * (s.cfg.height - 1) ∧ pulsesOf .cmt es = s.cfg.nbits ∧
    requestedDelay es = s.cfg.tReset + s.cfg.nbits * (s.cfg.tStep + s.cfg.tCommit)

/-- The costs of RDW (R98, R100, R103 item 3, R153): the same steps as FCL, and exactly as many
commit pulses as dots where `CUR` and `COM` differ on entry. -/
def Obligations.RdwCosts : Prop :=
  ∀ s : State, s.cfg.wf → ∃ t es, exec .rdw s = .next t ∧ t.trace = s.trace ++ es ∧
    pulsesOf .rst es = 1 ∧ pulsesOf .col es = s.cfg.width ∧
    pulsesOf .row es = s.cfg.width * (s.cfg.height - 1) ∧ pulsesOf .cmt es = s.changedDots ∧
    requestedDelay es =
      s.cfg.tReset + s.cfg.nbits * s.cfg.tStep + s.changedDots * s.cfg.tCommit

/-- The costs of AWR (R97, R100, R153): no reset pulse, `nc = (x - hx) mod W` column steps, `y` row
steps if `nc > 0` and else `(y - hy) mod H`, one commit pulse, at most `(W - 1) + (H - 1)` steps. -/
def Obligations.AwrCosts : Prop :=
  ∀ (s : State) (h : Pos) (x y : Nat) (v : Bool), s.head = some h → isDot s.cfg h.x h.y →
    x < s.cfg.width → y < s.cfg.height →
    ∃ t es, exec (.awr x y v) s = .next t ∧ t.trace = s.trace ++ es ∧
      pulsesOf .rst es = 0 ∧
      pulsesOf .col es = (x + s.cfg.width - h.x) % s.cfg.width ∧
      pulsesOf .row es = (if x = h.x then (y + s.cfg.height - h.y) % s.cfg.height else y) ∧
      pulsesOf .cmt es = 1 ∧
      stepPulses es ≤ (s.cfg.width - 1) + (s.cfg.height - 1) ∧
      requestedDelay es = stepPulses es * s.cfg.tStep + s.cfg.tCommit

/-- The commit of a changed dot comes after exactly `Index(x, y)` step pulses, with the dot's new
polarity (R98, R103 item 3, R145). -/
def Obligations.RdwCommitsInScanPosition : Prop :=
  ∀ (s : State) (x y : Nat), x < s.cfg.width → y < s.cfg.height →
    s.currentBit x y ≠ s.previousBit x y →
    ∃ t before after, exec .rdw s = .next t ∧
      t.trace = s.trace ++ before ++ Expect.commit s.cfg (s.currentBit x y) ++ after ∧
      stepPulses before = s.cfg.index x y

/-- Idempotent redraw (R103 item 1, R21): a second RDW with nothing in between fires no commit
pulse, and leaves both buffers and the head as they were. -/
def Obligations.SecondRedrawFiresNoCommit : Prop :=
  ∀ s t : State, exec .rdw s = .next t →
    ∃ u es, exec .rdw t = .next u ∧ u.trace = t.trace ++ es ∧ pulsesOf .cmt es = 0 ∧
      stepPulses es = s.cfg.nbits ∧ u.head = t.head ∧ u.lines.pol = t.lines.pol ∧
      (∀ k, u.cur.read k = t.cur.read k) ∧ (∀ k, u.com.read k = t.com.read k)

/-- Minimal pulsing (R103 item 2): with `COM` all-zero, `CLR; SPX x, y, 1; RDW` fires exactly one
commit pulse, of polarity on, after exactly `Index(x, y)` step pulses. -/
def Obligations.MinimalPulsing : Prop :=
  ∀ (s : State) (x y : Nat), x < s.cfg.width → y < s.cfg.height →
    (∀ k, k < s.cfg.nbytes → s.com.read k = 0x00#8) →
    ∃ t before after, execAll [.clr, .spx x y true, .rdw] s = .next t ∧
      t.trace = s.trace ++ before ++ Expect.commit s.cfg true ++ after ∧
      pulsesOf .cmt before = 0 ∧ pulsesOf .cmt after = 0 ∧
      stepPulses before = s.cfg.index x y ∧ stepPulses (before ++ after) = s.cfg.nbits

/-! ## The panel (45_panel_environment.md) -/

/-- The lines and the panel change only by the events the step appends to the trace: each line is at
the level its last event gave it, and the panel is its reaction to those events in order (R16, R24,
R111, R112, R114). -/
def Obligations.EventsDriveLinesAndPanel : Prop :=
  ∀ s t : State, step s = .next t →
    ∃ es, t.trace = s.trace ++ es ∧
      (t.lines, t.panel) = Driven.run s.cfg (s.lines, s.panel) es

/-- RST, FCL and RDW bring both heads to the origin, from any state of either (R112, R115). -/
def Obligations.ResetPulsesAgreeTheHeads : Prop :=
  ∀ s : State, ∀ i ∈ [Instr.rst, .fcl, .rdw],
    ∃ t, exec i s = .next t ∧ t.head = some ⟨0, 0⟩ ∧ t.panel.head = some ⟨0, 0⟩

/-- Head agreement, the source's requirement (a): once the believed and the physical head agree,
they agree after every step (R115; under its proviso, which the model has built in, log 10). -/
def Obligations.StepKeepsHeadAgreement : Prop :=
  ∀ s t : State, s.headsAgree → step s = .next t → t.headsAgree

/-- CMT with a known physical head gives the dot under it the value, and changes no other dot and no
head (R114). -/
def Obligations.CommitFlipsTheAddressedDot : Prop :=
  ∀ (s : State) (h : Pos) (v : Bool), s.panel.head = some h →
    ∃ t, exec (.cmt v) s = .next t ∧ t.dot h.x h.y = v ∧
      (∀ x y, (x, y) ≠ (h.x, h.y) → t.dot x y = s.dot x y) ∧
      t.panel.head = some h ∧ t.panel.blindSteps = s.panel.blindSteps ∧
      t.panel.shortCommits = s.panel.shortCommits

/-- CMT before any reset pulse gives some one dot of the panel the value and changes no other; which
one is a free value (R114; log 8). A second CMT with no step between them addresses the same dot,
and decides its polarity (R90). -/
def Obligations.BlindCommitFlipsOneUnknownDot : Prop :=
  ∀ (s : State) (v : Bool), s.cfg.wf → s.panel.head = none →
    ∃ t, exec (.cmt v) s = .next t ∧ t.panel.head = none ∧
      ∃ a : Pos, isDot s.cfg a.x a.y ∧ t.dot a.x a.y = v ∧
        (∀ x y, (x, y) ≠ (a.x, a.y) → t.dot x y = s.dot x y) ∧
        ∀ v' : Bool, ∃ u, exec (.cmt v') t = .next u ∧ u.dot a.x a.y = v' ∧
          ∀ x y, (x, y) ≠ (a.x, a.y) → u.dot x y = s.dot x y

/-- The commands that emit no commit pulse change no dot (R113, R80, R81, R82). -/
def Obligations.StepsAndBufferCommandsChangeNoDot : Prop :=
  ∀ (s : State) (i : Instr) (x y : Nat) (v : Bool),
    i ∈ [Instr.rst, .stc, .str, .spx x y v, .clr, .gpx x y] →
    ∃ t, exec i s = .next t ∧ ∀ a b, t.dot a b = s.dot a b

/-- FCL turns every dot of the panel off, whatever the panel and the block held (R116 item 2). -/
def Obligations.FclBlanksThePanel : Prop :=
  ∀ s : State, ∃ t, exec .fcl s = .next t ∧ ∀ x y, isDot s.cfg x y → t.dot x y = false

/-- If `COM` mirrors the panel, then after an RDW the panel shows `CUR` and `COM` mirrors it again
(R116 item 1, R103 item 4). -/
def Obligations.RdwShowsTheCurrentBuffer : Prop :=
  ∀ s : State, s.mirrors →
    ∃ t, exec .rdw s = .next t ∧ t.mirrors ∧
      ∀ x y, isDot s.cfg x y → t.dot x y = s.currentBit x y ∧ t.previousBit x y = s.currentBit x y

/-- AWR with agreeing heads gives its dot the value and changes no other dot; the heads agree at the
dot after it; `COM` is untouched, so it mirrors the panel afterwards, if it did before, exactly when
its bit of the dot is the value (R116 item 3, R148). -/
def Obligations.AwrSetsItsDot : Prop :=
  ∀ (s : State) (h : Pos) (x y : Nat) (v : Bool), s.head = some h → s.headsAgree →
    isDot s.cfg h.x h.y → x < s.cfg.width → y < s.cfg.height →
    ∃ t, exec (.awr x y v) s = .next t ∧ t.dot x y = v ∧
      (∀ a b, (a, b) ≠ (x, y) → t.dot a b = s.dot a b) ∧
      t.head = some ⟨x, y⟩ ∧ t.panel.head = some ⟨x, y⟩ ∧
      (s.mirrors → (t.mirrors ↔ s.previousBit x y = v))

/-- The boot sequence `FCL; CLR; RDW` from any state (R142): both heads at the origin, both buffers
all-zero, every dot off, `COM` mirrors the panel, three OK responses. -/
def Obligations.BootSequenceEstablishesAgreement : Prop :=
  ∀ s : State, ∃ t, execAll [.fcl, .clr, .rdw] s = .next t ∧
    t.head = some ⟨0, 0⟩ ∧ t.panel.head = some ⟨0, 0⟩ ∧
    (∀ k, k < s.cfg.nbytes → t.cur.read k = 0x00#8 ∧ t.com.read k = 0x00#8) ∧
    (∀ x y, isDot s.cfg x y → t.dot x y = false) ∧ t.mirrors ∧
    t.responses = s.responses ++ [⟨.ok, 0#2⟩, ⟨.ok, 0#2⟩, ⟨.ok, 0#2⟩]

/-- The hazard of FCL (R147): after `FCL; RDW` a dot whose bits in `CUR` and `COM` were both 1 is
off on the panel, although both buffers say it is on. -/
def Obligations.StaleCommittedBufferHazard : Prop :=
  ∀ (s : State) (x y : Nat), isDot s.cfg x y → s.currentBit x y = true → s.previousBit x y = true →
    ∃ t, execAll [.fcl, .rdw] s = .next t ∧ t.dot x y = false ∧
      t.currentBit x y = true ∧ t.previousBit x y = true

/-! ## Rules of the whole machine -/

/-- Every step keeps the invariant (R10, R11, R16, R19, R20, R22, R24, R75, R111). -/
def Obligations.StepKeepsInv : Prop :=
  ∀ s t : State, s.Inv → step s = .next t → t.Inv

/-- Only RDW writes `COM`; only SPX and CLR write `CUR` (R19, R20, R44). -/
def Obligations.WhoWritesTheBuffers : Prop :=
  ∀ (s t : State) (i : Instr), exec i s = .next t →
    (i ≠ .rdw → t.com = s.com) ∧
    (i ≠ .clr → (∀ x y v, i ≠ .spx x y v) → t.cur = s.cur)

/-- No command clears `HV`, and only RST, FCL and RDW set it (R12, R13). -/
def Obligations.WhoDefinesTheHead : Prop :=
  ∀ (s t : State) (i : Instr), exec i s = .next t →
    (s.headValid = true → t.headValid = true) ∧
    (s.headValid = false → t.headValid = true → i ∈ [Instr.rst, .fcl, .rdw])

/-- `WIDTH` and `HEIGHT`, and the other parameters, never change (R18, R3). -/
def Obligations.ParametersNeverChange : Prop :=
  ∀ s t : State, step s = .next t → t.cfg = s.cfg

/-- No feedback (R117): two states that differ only in the panel step to states that differ only in
the panel, so no response, register, buffer, line or event depends on it. -/
def Obligations.PanelIsNeverObserved : Prop :=
  ∀ (s t : State) (p : Panel), step s = .next t →
    ∃ q, step { s with panel := p } = .next { t with panel := q }

/-- No rule of the block reads `LINES` (R17): two states that differ only in the line levels step to
states that differ only in the line levels and the panel. -/
def Obligations.LinesAreNeverRead : Prop :=
  ∀ (s t : State) (ls : Lines), step s = .next t →
    ∃ ls' q, step { s with lines := ls } = .next { t with lines := ls', panel := q }
end

