-- ==== Sys2Proof/Laws/PerInstr.lean ====
section
/-! SUPPORT. What the encoder puts into each field of a command's word (R50, R57), one lemma per
command, over the fields of an assembled word. -/

namespace Sys2Proof

theorem opField_assemble (op : BitVec 4) (v : Bool) (x y : BitVec 12) :
    opField (assemble op v x y) = op := by
  unfold opField assemble
  ext i hi
  simp
  grind

theorem rsvField_assemble (op : BitVec 4) (v : Bool) (x y : BitVec 12) :
    rsvField (assemble op v x y) = 0#3 := by
  unfold rsvField assemble
  ext i hi
  simp
  grind

theorem vField_assemble (op : BitVec 4) (v : Bool) (x y : BitVec 12) :
    vField (assemble op v x y) = v := by
  unfold vField assemble
  simp only [BitVec.getLsbD_append]
  simp

theorem xField_assemble (op : BitVec 4) (v : Bool) (x y : BitVec 12) :
    xField (assemble op v x y) = x := by
  unfold xField assemble
  ext i hi
  simp
  grind

theorem yField_assemble (op : BitVec 4) (v : Bool) (x y : BitVec 12) :
    yField (assemble op v x y) = y := by
  unfold yField assemble
  ext i hi
  simp
  grind

namespace Laws.EncodeFields

/-- The word of a well-formed command carries its opcode number, zero reserved bits, and its
operands in their fields, absent operands 0 (R50, R57). -/
def Statement (i : Instr) : Prop :=
  i.wf →
    (opField (encode i)).toNat = i.fields.1 ∧ rsvField (encode i) = 0#3 ∧
      (vField (encode i)).toNat = i.fields.2.1 ∧ (xField (encode i)).toNat = i.fields.2.2.1 ∧
      (yField (encode i)).toNat = i.fields.2.2.2

theorem of_assemble {i : Instr} {op : BitVec 4} {v : Bool} {x y : Nat}
    (he : encode i = assemble op v (BitVec.ofNat 12 x) (BitVec.ofNat 12 y))
    (hf : i.fields = (op.toNat, v.toNat, x, y)) (hx : x ≤ 4095) (hy : y ≤ 4095) :
    (opField (encode i)).toNat = i.fields.1 ∧ rsvField (encode i) = 0#3 ∧
      (vField (encode i)).toNat = i.fields.2.1 ∧ (xField (encode i)).toNat = i.fields.2.2.1 ∧
      (yField (encode i)).toNat = i.fields.2.2.2 := by
  rw [he, hf, opField_assemble, rsvField_assemble, vField_assemble, xField_assemble,
    yField_assemble]
  simp only [BitVec.toNat_ofNat, true_and]
  omega

theorem rst : Statement .rst := fun _ => of_assemble (x := 0) (y := 0) rfl rfl (by omega) (by omega)
theorem stc : Statement .stc := fun _ => of_assemble (x := 0) (y := 0) rfl rfl (by omega) (by omega)
theorem str : Statement .str := fun _ => of_assemble (x := 0) (y := 0) rfl rfl (by omega) (by omega)
theorem spx (x y : Nat) (v : Bool) : Statement (.spx x y v) := fun h => of_assemble rfl rfl h.1 h.2
theorem clr : Statement .clr := fun _ => of_assemble (x := 0) (y := 0) rfl rfl (by omega) (by omega)
theorem gpx (x y : Nat) : Statement (.gpx x y) := fun h => of_assemble rfl rfl h.1 h.2
theorem cmt (v : Bool) : Statement (.cmt v) :=
  fun _ => of_assemble (x := 0) (y := 0) rfl rfl (by omega) (by omega)
theorem fcl : Statement .fcl := fun _ => of_assemble (x := 0) (y := 0) rfl rfl (by omega) (by omega)
theorem awr (x y : Nat) (v : Bool) : Statement (.awr x y v) := fun h => of_assemble rfl rfl h.1 h.2
theorem rdw : Statement .rdw := fun _ => of_assemble (x := 0) (y := 0) rfl rfl (by omega) (by omega)

end Laws.EncodeFields

end Sys2Proof
end

