-- ==== Sys2Proof/Laws/Decode.lean ====
section
/-! SUPPORT. Laws of the command word: it is its five fields, as bits and as numbers; and the match
and mask words of the opcode map say the same of a word as its fields and format do (R50, R51,
R53). -/

namespace Sys2Proof

theorem word_eq_fields (w : Word) :
    w = opField w ++ rsvField w ++ BitVec.ofBool (vField w) ++ xField w ++ yField w := by
  ext i hi
  simp [opField, rsvField, vField, xField, yField]
  grind

theorem bits_eq_iff {n : Nat} (a b : BitVec n) :
    a = b ↔ ∀ j < n, a.getLsbD j = b.getLsbD j :=
  ⟨fun h j _ => by rw [h], fun h => BitVec.eq_of_getLsbD_eq (fun {i} hi => h i hi)⟩

theorem opField_bit (w : Word) {j : Nat} (h : j < 4) :
    (opField w).getLsbD j = w.getLsbD (28 + j) := by simp [opField, h]

theorem rsvField_bit (w : Word) {j : Nat} (h : j < 3) :
    (rsvField w).getLsbD j = w.getLsbD (25 + j) := by simp [rsvField, h]

theorem xField_bit (w : Word) {j : Nat} (h : j < 12) :
    (xField w).getLsbD j = w.getLsbD (12 + j) := by simp [xField, h]

theorem yField_bit (w : Word) {j : Nat} (h : j < 12) :
    (yField w).getLsbD j = w.getLsbD (0 + j) := by simp [yField, h]

/-- The fields as numbers (R52). -/
theorem word_field_numbers (w : Word) :
    (opField w).toNat = w.toNat / 2 ^ 28 ∧ (rsvField w).toNat = w.toNat / 2 ^ 25 % 8 ∧
      vField w = (w.toNat / 2 ^ 24 % 2 == 1) ∧ (xField w).toNat = w.toNat / 2 ^ 12 % 2 ^ 12 ∧
      (yField w).toNat = w.toNat % 2 ^ 12 := by
  have := w.isLt
  refine ⟨?_, ?_, ?_, ?_, ?_⟩
  · simp [opField, Nat.shiftRight_eq_div_pow]
    omega
  · simp [rsvField, Nat.shiftRight_eq_div_pow]
  · simp only [vField, BitVec.getLsbD, Nat.testBit_eq_decide_div_mod_eq]
    rfl
  · simp [xField, Nat.shiftRight_eq_div_pow]
  · simp [yField]

/-- The opcode number of a row selects that row (R53). -/
theorem Opcode.ofCode_iff (op : BitVec 4) (o : Opcode) : Opcode.ofCode op = some o ↔ op = o.code := by
  cases o <;> revert op <;> decide

/-- What a word that decodes looks like (R54). -/
theorem decode_ok {w : Word} {i : Instr} (h : decode w = .ok i) :
    ∃ o : Opcode, opField w = o.code ∧ rsvField w = 0#3 ∧ o.format.unusedZero w = true ∧
      i = o.instr w := by
  unfold decode at h
  split at h
  · cases h
  · rename_i o ho
    split at h
    · cases h
    · rename_i hr
      split at h
      · rename_i hu
        injection h with h
        exact ⟨o, (Opcode.ofCode_iff _ _).1 ho, by simpa using hr, hu, h.symm⟩
      · cases h

/-- A word with a row's opcode, zero reserved bits and zero unused fields decodes to its command. -/
theorem decode_of_fields {w : Word} {o : Opcode} (ho : opField w = o.code) (hr : rsvField w = 0#3)
    (hu : o.format.unusedZero w = true) : decode w = .ok (o.instr w) := by
  simp [decode, (Opcode.ofCode_iff _ _).2 ho, hr, hu]

/-- The unused fields of a row, bit by bit (R51). -/
theorem Opcode.unusedZero_bits (w : Word) (o : Opcode) :
    o.format.unusedZero w = true ↔
      (o.format = .n ∨ o.format = .xy → w.getLsbD 24 = false) ∧
      (o.format = .n ∨ o.format = .v →
        (∀ j < 12, w.getLsbD (12 + j) = false) ∧ ∀ j < 12, w.getLsbD (0 + j) = false) := by
  have ex : xField w = 0#12 ↔ ∀ j < 12, w.getLsbD (12 + j) = false := by
    rw [bits_eq_iff]
    constructor <;> intro h j hj <;> have := h j hj <;> rw [xField_bit _ hj] at * <;> simpa using this
  have ey : yField w = 0#12 ↔ ∀ j < 12, w.getLsbD (0 + j) = false := by
    rw [bits_eq_iff]
    constructor <;> intro h j hj <;> have := h j hj <;> rw [yField_bit _ hj] at * <;> simpa using this
  cases o <;> simp [Opcode.format, Format.unusedZero, vField, ex, ey, and_assoc]

/-- The match and mask words of a row select exactly the words with its opcode, zero reserved bits
and zero unused fields (R51, R53). -/
theorem Opcode.selects_iff_fields (w : Word) (o : Opcode) :
    w &&& o.mask = o.pattern ↔
      opField w = o.code ∧ rsvField w = 0#3 ∧ o.format.unusedZero w = true := by
  have em : w &&& o.mask = o.pattern ↔
      ∀ j < 32, (w.getLsbD j && o.mask.getLsbD j) = o.pattern.getLsbD j := by
    rw [bits_eq_iff]
    simp only [BitVec.getLsbD_and]
  have eo : opField w = o.code ↔ ∀ j < 4, w.getLsbD (28 + j) = o.code.getLsbD j := by
    rw [bits_eq_iff]
    constructor <;> intro h j hj <;> have := h j hj <;> rw [opField_bit _ hj] at * <;> assumption
  have er : rsvField w = 0#3 ↔ ∀ j < 3, w.getLsbD (25 + j) = false := by
    rw [bits_eq_iff]
    constructor <;> intro h j hj <;> have := h j hj <;> rw [rsvField_bit _ hj] at * <;> simpa using this
  rw [em, eo, er, Opcode.unusedZero_bits]
  clear em eo er
  generalize w.getLsbD = g
  constructor
  · intro h
    refine ⟨fun j hj => ?_, fun j hj => ?_, fun hf => ?_, fun hf => ⟨fun j hj => ?_, fun j hj => ?_⟩⟩
    · have := h (28 + j) (by omega)
      interval_cases j <;> cases o <;> simpa [Opcode.mask, Opcode.pattern, Opcode.code] using this
    · have := h (25 + j) (by omega)
      interval_cases j <;> cases o <;> simpa [Opcode.mask, Opcode.pattern] using this
    · have := h 24 (by omega)
      cases o <;> simp [Opcode.mask, Opcode.pattern, Opcode.format] at this hf ⊢ <;> assumption
    · have := h (12 + j) (by omega)
      interval_cases j <;> cases o <;>
        simp [Opcode.mask, Opcode.pattern, Opcode.format] at this hf ⊢ <;> assumption
    · have := h (0 + j) (by omega)
      interval_cases j <;> cases o <;>
        simp [Opcode.mask, Opcode.pattern, Opcode.format] at this hf ⊢ <;> assumption
  · rintro ⟨h1, h2, h3, h4⟩ j hj
    have c1 : 28 ≤ j → g j = o.code.getLsbD (j - 28) := fun h => by
      have := h1 (j - 28) (by omega)
      rwa [show 28 + (j - 28) = j by omega] at this
    have c2 : 25 ≤ j → j < 28 → g j = false := fun h h' => by
      have := h2 (j - 25) (by omega)
      rwa [show 25 + (j - 25) = j by omega] at this
    have c4 : (o.format = .n ∨ o.format = .v) → j < 24 → g j = false := fun hf h => by
      rcases Nat.lt_or_ge j 12 with hh | hh
      · simpa using (h4 hf).2 j hh
      · have := (h4 hf).1 (j - 12) (by omega)
        rwa [show 12 + (j - 12) = j by omega] at this
    interval_cases j <;> cases o <;>
      simp [Opcode.mask, Opcode.pattern, Opcode.code, Opcode.format] at c1 c2 c4 h3 ⊢ <;> assumption

end Sys2Proof
end

