-- ==== Sys2Proof/Laws/State.lean ====
section
/-! SUPPORT. One lemma per field of each state update, true by rfl, so that no proof unfolds a
record update. -/

namespace Sys2Proof.Machine

variable (s : State) (h : Option Pos) (m : Memory) (st : Status) (d : BitVec 2) (w : Word) (e : Event)

@[simp] theorem State.setHead_cfg : (s.setHead h).cfg = s.cfg := rfl
@[simp] theorem State.setHead_mode : (s.setHead h).mode = s.mode := rfl
@[simp] theorem State.setHead_head : (s.setHead h).head = h := rfl
@[simp] theorem State.setHead_lines : (s.setHead h).lines = s.lines := rfl
@[simp] theorem State.setHead_cur : (s.setHead h).cur = s.cur := rfl
@[simp] theorem State.setHead_com : (s.setHead h).com = s.com := rfl
@[simp] theorem State.setHead_trace : (s.setHead h).trace = s.trace := rfl
@[simp] theorem State.setHead_panel : (s.setHead h).panel = s.panel := rfl
@[simp] theorem State.setHead_pending : (s.setHead h).pending = s.pending := rfl
@[simp] theorem State.setHead_responses : (s.setHead h).responses = s.responses := rfl

@[simp] theorem State.setCur_cfg : (s.setCur m).cfg = s.cfg := rfl
@[simp] theorem State.setCur_mode : (s.setCur m).mode = s.mode := rfl
@[simp] theorem State.setCur_head : (s.setCur m).head = s.head := rfl
@[simp] theorem State.setCur_lines : (s.setCur m).lines = s.lines := rfl
@[simp] theorem State.setCur_cur : (s.setCur m).cur = m := rfl
@[simp] theorem State.setCur_com : (s.setCur m).com = s.com := rfl
@[simp] theorem State.setCur_trace : (s.setCur m).trace = s.trace := rfl
@[simp] theorem State.setCur_panel : (s.setCur m).panel = s.panel := rfl
@[simp] theorem State.setCur_pending : (s.setCur m).pending = s.pending := rfl
@[simp] theorem State.setCur_responses : (s.setCur m).responses = s.responses := rfl

@[simp] theorem State.setCom_cfg : (s.setCom m).cfg = s.cfg := rfl
@[simp] theorem State.setCom_mode : (s.setCom m).mode = s.mode := rfl
@[simp] theorem State.setCom_head : (s.setCom m).head = s.head := rfl
@[simp] theorem State.setCom_lines : (s.setCom m).lines = s.lines := rfl
@[simp] theorem State.setCom_cur : (s.setCom m).cur = s.cur := rfl
@[simp] theorem State.setCom_com : (s.setCom m).com = m := rfl
@[simp] theorem State.setCom_trace : (s.setCom m).trace = s.trace := rfl
@[simp] theorem State.setCom_panel : (s.setCom m).panel = s.panel := rfl
@[simp] theorem State.setCom_pending : (s.setCom m).pending = s.pending := rfl
@[simp] theorem State.setCom_responses : (s.setCom m).responses = s.responses := rfl

@[simp] theorem State.emit_cfg : (s.emit e).cfg = s.cfg := rfl
@[simp] theorem State.emit_mode : (s.emit e).mode = s.mode := rfl
@[simp] theorem State.emit_head : (s.emit e).head = s.head := rfl
@[simp] theorem State.emit_lines : (s.emit e).lines = s.lines.after e := rfl
@[simp] theorem State.emit_cur : (s.emit e).cur = s.cur := rfl
@[simp] theorem State.emit_com : (s.emit e).com = s.com := rfl
@[simp] theorem State.emit_trace : (s.emit e).trace = s.trace ++ [e] := rfl
@[simp] theorem State.emit_panel : (s.emit e).panel = s.panel.react s.cfg s.lines.pol e := rfl
@[simp] theorem State.emit_pending : (s.emit e).pending = s.pending := rfl
@[simp] theorem State.emit_responses : (s.emit e).responses = s.responses := rfl

@[simp] theorem State.answer_cfg : (s.answer st d).cfg = s.cfg := rfl
@[simp] theorem State.answer_mode : (s.answer st d).mode = s.mode := rfl
@[simp] theorem State.answer_head : (s.answer st d).head = s.head := rfl
@[simp] theorem State.answer_lines : (s.answer st d).lines = s.lines := rfl
@[simp] theorem State.answer_cur : (s.answer st d).cur = s.cur := rfl
@[simp] theorem State.answer_com : (s.answer st d).com = s.com := rfl
@[simp] theorem State.answer_trace : (s.answer st d).trace = s.trace := rfl
@[simp] theorem State.answer_panel : (s.answer st d).panel = s.panel := rfl
@[simp] theorem State.answer_pending : (s.answer st d).pending = s.pending := rfl
@[simp] theorem State.answer_responses :
    (s.answer st d).responses = s.responses ++ [⟨st, d⟩] := rfl

@[simp] theorem State.answerOk_eq : s.answerOk = s.answer .ok 0#2 := rfl
@[simp] theorem State.raise_eq : s.raise st = s.answer st 0#2 := rfl

@[simp] theorem State.present_pending : (s.present w).pending = w :: s.pending := rfl
@[simp] theorem State.takeCommand_present : (s.present w).takeCommand = some (w, s) := rfl

theorem State.takeCommand_nil (hp : s.pending = []) : s.takeCommand = none := by
  simp [State.takeCommand, hp]

theorem State.takeCommand_cons {rest : List Word} (hp : s.pending = w :: rest) :
    s.takeCommand = some (w, { s with pending := rest }) := by
  simp [State.takeCommand, hp]

@[simp] theorem Lines.get_set_same (ls : Lines) (l : Line) (b : Bool) : (ls.set l b).get l = b := by
  cases l <;> rfl

theorem Lines.get_set_other (ls : Lines) {l k : Line} (b : Bool) (hk : k ≠ l) :
    (ls.set l b).get k = ls.get k := by
  cases l <;> cases k <;> first | rfl | exact absurd rfl hk

@[simp] theorem Lines.set_set (ls : Lines) (l : Line) (a b : Bool) : (ls.set l a).set l b = ls.set l b := by
  cases l <;> rfl

end Sys2Proof.Machine
end

