-- ==== Sys2Proof/Laws/Memory.lean ====
section
/-! SUPPORT. Laws of the keyed lists and of the byte memories: a read after a write, the canonical
form kept by every operation and by reset, and what the whole-buffer operations leave. -/

namespace Sys2Proof.Machine

/-! ## Keyed lists -/

section Keyed
variable {κ α : Type} [BEq κ] [LawfulBEq κ] (lt : κ → κ → Bool)

theorem Keyed.lookup_erase_same (k : κ) (m : List (κ × α)) : (Keyed.erase k m).lookup k = none := by
  rw [List.lookup_eq_none_iff]
  intro c hc
  have h : c.1 ≠ k := by simpa using (List.mem_filter.1 hc).2
  simpa using fun e => h e.symm

theorem Keyed.lookup_erase_other {k j : κ} (hj : j ≠ k) (m : List (κ × α)) :
    (Keyed.erase k m).lookup j = m.lookup j := by
  unfold Keyed.erase
  induction m with
  | nil => rfl
  | cons c m ih =>
    obtain ⟨a, b⟩ := c
    by_cases hc : a = k
    · have : (j == a) = false := by simpa [hc] using hj
      rw [List.filter_cons_of_neg (by simpa using hc), ih, List.lookup_cons, this]
    · simp [hc, List.lookup_cons, ih]

theorem Keyed.lookup_insert_same (k : κ) (v : α) {m : List (κ × α)} (hm : m.lookup k = none) :
    (Keyed.insert lt k v m).lookup k = some v := by
  induction m with
  | nil => simp [Keyed.insert]
  | cons c m ih =>
    obtain ⟨a, b⟩ := c
    unfold Keyed.insert
    split
    · simp
    · rw [List.lookup_cons] at hm ⊢
      split at hm
      · cases hm
      · exact ih hm

theorem Keyed.lookup_insert_other {k j : κ} (hj : j ≠ k) (v : α) (m : List (κ × α)) :
    (Keyed.insert lt k v m).lookup j = m.lookup j := by
  have hjk : (j == k) = false := by simpa using hj
  induction m with
  | nil => simp [Keyed.insert, List.lookup_cons, hjk]
  | cons c m ih =>
    obtain ⟨a, b⟩ := c
    unfold Keyed.insert
    split
    · rw [List.lookup_cons, hjk]
    · rw [List.lookup_cons, List.lookup_cons, ih]

/-- A put key has the value put. -/
theorem Keyed.lookup_put_same (k : κ) (v : α) (m : List (κ × α)) :
    (Keyed.put lt k v m).lookup k = some v :=
  Keyed.lookup_insert_same lt k v (Keyed.lookup_erase_same k m)

/-- Every other key has what it had. -/
theorem Keyed.lookup_put_other {k j : κ} (hj : j ≠ k) (v : α) (m : List (κ × α)) :
    (Keyed.put lt k v m).lookup j = m.lookup j := by
  rw [Keyed.put, Keyed.lookup_insert_other lt hj, Keyed.lookup_erase_other hj]

theorem Keyed.mem_erase {k : κ} {m : List (κ × α)} {c : κ × α} (hc : c ∈ Keyed.erase k m) :
    c ∈ m ∧ c.1 ≠ k := by
  simpa [Keyed.erase] using hc

omit [BEq κ] [LawfulBEq κ] in
theorem Keyed.mem_insert {k : κ} {v : α} {m : List (κ × α)} {c : κ × α}
    (hc : c ∈ Keyed.insert lt k v m) : c = (k, v) ∨ c ∈ m := by
  induction m with
  | nil => exact .inl (by simpa [Keyed.insert] using hc)
  | cons a m ih =>
    unfold Keyed.insert at hc
    split at hc
    · simpa using hc
    · rcases List.mem_cons.1 hc with h | h
      · exact .inr (by simp [h])
      · rcases ih h with h | h
        · exact .inl h
        · exact .inr (by simp [h])

theorem Keyed.mem_put {k : κ} {v : α} {m : List (κ × α)} {c : κ × α}
    (hc : c ∈ Keyed.put lt k v m) : c = (k, v) ∨ c ∈ m :=
  (Keyed.mem_insert lt hc).imp_right fun h => (Keyed.mem_erase h).1

omit [LawfulBEq κ] in
theorem Keyed.erase_sorted (k : κ) {m : List (κ × α)}
    (hm : m.Pairwise (fun a b => lt a.1 b.1 = true)) :
    (Keyed.erase k m).Pairwise (fun a b => lt a.1 b.1 = true) := hm.filter _

/-- A put keeps keys strictly rising, for an order that is transitive and compares any two
different keys. -/
theorem Keyed.put_sorted (k : κ) (v : α) {m : List (κ × α)}
    (trans : ∀ a b c, lt a b = true → lt b c = true → lt a c = true)
    (total : ∀ a b, a ≠ b → lt a b = false → lt b a = true)
    (hm : m.Pairwise (fun a b => lt a.1 b.1 = true)) :
    (Keyed.put lt k v m).Pairwise (fun a b => lt a.1 b.1 = true) := by
  have key : ∀ n : List (κ × α), (∀ c ∈ n, c.1 ≠ k) → n.Pairwise (fun a b => lt a.1 b.1 = true) →
      (Keyed.insert lt k v n).Pairwise (fun a b => lt a.1 b.1 = true) := by
    intro n hk hn
    induction n with
    | nil => simp [Keyed.insert]
    | cons c n ih =>
      have hc := List.pairwise_cons.1 hn
      unfold Keyed.insert
      split
      · rename_i hlt
        refine List.pairwise_cons.2 ⟨fun a ha => ?_, hn⟩
        rcases List.mem_cons.1 ha with rfl | ha
        · exact hlt
        · exact trans _ _ _ hlt (hc.1 a ha)
      · rename_i hlt
        refine List.pairwise_cons.2 ⟨fun a ha => ?_, ih (fun a ha => hk a (by simp [ha])) hc.2⟩
        rcases Keyed.mem_insert lt ha with rfl | ha
        · exact total k c.1 (fun e => hk c (by simp) e.symm) (by simpa using hlt)
        · exact hc.1 a ha
  exact key _ (fun c hc => (Keyed.mem_erase hc).2) (Keyed.erase_sorted lt k hm)

end Keyed

/-! ## Bytes -/

/-- A byte just written reads as written. -/
@[simp] theorem Memory.read_write_same (m : Memory) (k : Nat) (v : Byte) : (m.write k v).read k = v := by
  unfold Memory.write Memory.read
  split
  · rename_i hv
    rw [Keyed.lookup_erase_same]
    exact hv.symm
  · rw [Keyed.lookup_put_same]
    rfl

/-- Every other byte reads as before. -/
theorem Memory.read_write_other (m : Memory) {k j : Nat} (v : Byte) (hj : j ≠ k) :
    (m.write k v).read j = m.read j := by
  unfold Memory.write Memory.read
  split
  · rw [Keyed.lookup_erase_other hj]
  · rw [Keyed.lookup_put_other offsetLt hj]

theorem Memory.read_write (m : Memory) (k j : Nat) (v : Byte) :
    (m.write k v).read j = if j = k then v else m.read j := by
  split
  · rename_i h
    rw [h, Memory.read_write_same]
  · rename_i h
    exact Memory.read_write_other m v h

@[simp] theorem Memory.read_nil (k : Nat) : Memory.read [] k = 0x00#8 := rfl

/-- A write keeps the canonical form. -/
theorem Memory.write_wf (m : Memory) (k : Nat) (v : Byte) (hm : m.wf) : (m.write k v).wf := by
  have sorted : m.Pairwise (fun a b => offsetLt a.1 b.1 = true) := by simpa [offsetLt] using hm.1
  unfold Memory.write
  split
  · exact ⟨hm.1.filter _, fun c hc => hm.2 c (Keyed.mem_erase hc).1⟩
  · rename_i hv
    refine ⟨?_, fun c hc => ?_⟩
    · have h := Keyed.put_sorted offsetLt k v (by simp [offsetLt]; omega)
        (by simp [offsetLt]; omega) sorted
      simpa [offsetLt] using h
    · rcases Keyed.mem_put offsetLt hc with rfl | hc
      · exact hv
      · exact hm.2 c hc

theorem Memory.mem_write {m : Memory} {k : Nat} {v : Byte} {c : Host.Cell} (hc : c ∈ m.write k v) :
    c = (k, v) ∨ c ∈ m := by
  unfold Memory.write at hc
  split at hc
  · exact .inr (Keyed.mem_erase hc).1
  · exact Keyed.mem_put offsetLt hc

/-- The memories of the reset state are in canonical form. -/
theorem State.reset_memories_wf : State.reset.cur.wf ∧ State.reset.com.wf := by decide

/-- Memories in canonical form with equal contents are equal data. -/
theorem Memory.ext_of_wf {m n : Memory} (hm : m.wf) (hn : n.wf) (h : ∀ k, m.read k = n.read k) :
    m = n := by
  have low : ∀ {c : Host.Cell} {l : Memory}, (∀ a ∈ l, c.1 < a.1) → ∀ j ≤ c.1, Memory.read l j = 0x00#8 := by
    intro c l hl j hj
    have : l.lookup j = none := by
      rw [List.lookup_eq_none_iff]
      intro a ha
      have := hl a ha
      simp
      omega
    simp [Memory.read, this]
  have here : ∀ (c : Host.Cell) (l : Memory), Memory.read (c :: l) c.1 = c.2 := by
    rintro ⟨a, b⟩ l
    simp [Memory.read]
  have there : ∀ (c : Host.Cell) (l : Memory) (j : Nat), j ≠ c.1 → Memory.read (c :: l) j = Memory.read l j := by
    rintro ⟨a, b⟩ l j hj
    have : (j == a) = false := by simpa using hj
    simp [Memory.read, List.lookup_cons, this]
  have under : ∀ (c : Host.Cell) (l : Memory), (∀ a ∈ l, c.1 < a.1) → ∀ j < c.1, Memory.read (c :: l) j = 0x00#8 := by
    intro c l hl j hj
    rw [there c l j (by omega)]
    exact low hl j (by omega)
  induction m generalizing n with
  | nil =>
    cases n with
    | nil => rfl
    | cons c n =>
      have := h c.1
      rw [here] at this
      exact absurd this.symm (hn.2 c (by simp))
  | cons a m ih =>
    have ha := List.pairwise_cons.1 hm.1
    cases n with
    | nil =>
      have := h a.1
      rw [here] at this
      exact absurd this (hm.2 a (by simp))
    | cons c n =>
      have hc := List.pairwise_cons.1 hn.1
      have hk : a.1 = c.1 := by
        rcases Nat.lt_trichotomy a.1 c.1 with hlt | heq | hgt
        · have := h a.1
          rw [here, under c n hc.1 _ hlt] at this
          exact absurd this (hm.2 a (by simp))
        · exact heq
        · have := h c.1
          rw [here, under a m ha.1 _ hgt] at this
          exact absurd this.symm (hn.2 c (by simp))
      have hv : a.2 = c.2 := by
        have := h a.1
        rwa [here, hk, here] at this
      have hac : a = c := Prod.ext hk hv
      subst hac
      congr 1
      refine ih ⟨ha.2, fun b hb => hm.2 b (by simp [hb])⟩ ⟨hc.2, fun b hb => hn.2 b (by simp [hb])⟩
        fun j => ?_
      by_cases hj : j = a.1
      · rw [low ha.1 j (by omega), low hc.1 j (by omega)]
      · rw [← there a m j hj, ← there a n j hj]
        exact h j

/-! ## The whole-buffer operations -/

/-- What a loop of writes at the offsets below `n` leaves. -/
theorem Memory.read_writeLoop (f : Nat → Byte) (n : Nat) (m : Memory) (j : Nat) :
    Memory.read ((List.range n).foldl (fun m k => m.write k (f k)) m) j =
      if j < n then f j else m.read j := by
  induction n with
  | zero => simp
  | succ n ih =>
    rw [List.range_succ, List.foldl_append]
    simp only [List.foldl_cons, List.foldl_nil, Memory.read_write, ih]
    by_cases h : j = n
    · simp [h]
    · have : (j < n + 1) = (j < n) := by simp; omega
      simp [h, this]

theorem Memory.writeLoop_wf (f : Nat → Byte) (n : Nat) (m : Memory) (hm : m.wf) :
    Memory.wf ((List.range n).foldl (fun m k => m.write k (f k)) m) := by
  induction n with
  | zero => simpa using hm
  | succ n ih =>
    rw [List.range_succ, List.foldl_append]
    exact Memory.write_wf _ _ _ ih

/-- Clear writes `0x00` to every byte of the buffer and to no other. -/
theorem Memory.read_clearAll (c : Config) (m : Memory) (j : Nat) :
    (m.clearAll c).read j = if j < c.nbytes then 0x00#8 else m.read j :=
  Memory.read_writeLoop (fun _ => 0x00#8) c.nbytes m j

theorem Memory.clearAll_wf (c : Config) (m : Memory) (hm : m.wf) : (m.clearAll c).wf :=
  Memory.writeLoop_wf (fun _ => 0x00#8) c.nbytes m hm

/-- The copy writes every byte of the buffer from its source and no other. -/
theorem Memory.read_copyFrom (c : Config) (dst src : Memory) (j : Nat) :
    (dst.copyFrom c src).read j = if j < c.nbytes then src.read j else dst.read j :=
  Memory.read_writeLoop src.read c.nbytes dst j

theorem Memory.copyFrom_wf (c : Config) (dst src : Memory) (hm : dst.wf) : (dst.copyFrom c src).wf :=
  Memory.writeLoop_wf src.read c.nbytes dst hm

theorem Memory.bitWrite_wf (c : Config) (m : Memory) (x y : Nat) (v : Bool) (hm : m.wf) :
    (m.bitWrite c x y v).wf := Memory.write_wf _ _ _ hm

/-! ## Bits of a byte -/

/-- A bit update sets its own bit and keeps the other seven. -/
theorem getLsbD_bitUpdate (old : Byte) (v : Bool) {a b : Nat} (ha : a < 8) :
    (bitUpdate old b v).getLsbD a = if a = b then v else old.getLsbD a := by
  unfold bitUpdate
  have hff : (0xFF#8).getLsbD a = true := by
    have : ∀ i < 8, (0xFF#8).getLsbD i = true := by decide
    exact this a ha
  have hm : (1#8 <<< b).getLsbD a = decide (a = b) := by
    rw [BitVec.getLsbD_shiftLeft, BitVec.getLsbD_one]
    by_cases hab : a = b
    · subst hab
      simp [ha]
    · simp only [hab, decide_false]
      simp
      omega
  by_cases hab : a = b
  · subst hab
    cases v <;> simp only [Bool.false_eq_true, if_true, if_false, BitVec.getLsbD_and,
      BitVec.getLsbD_or, BitVec.getLsbD_xor, hm, hff, decide_true, Bool.or_true, Bool.xor_self,
      Bool.and_false]
  · cases v <;> simp only [Bool.false_eq_true, if_true, if_false, BitVec.getLsbD_and,
      BitVec.getLsbD_or, BitVec.getLsbD_xor, hm, hff, hab, decide_false, Bool.or_false,
      Bool.xor_false, Bool.and_true]

end Sys2Proof.Machine
end

