-- ==== Sys2Proof/Laws/Operands.lean ====
section
/-! SUPPORT. Laws of the geometry: where a dot's bit lies, and that the range check is exact. -/

namespace Sys2Proof

open Machine

theorem Config.inRange_iff (c : Config) (x y : Nat) : c.inRange x y = true ↔ isDot c x y := by
  simp [Config.inRange]

theorem Config.index_lt {c : Config} {x y : Nat} (h : isDot c x y) : c.index x y < c.nbits := by
  have h1 : (x + 1) * c.height ≤ c.width * c.height := Nat.mul_le_mul_right _ h.1
  have h2 := h.2
  rw [Nat.add_mul] at h1
  unfold Config.index Config.nbits
  omega

theorem Config.height_pos {c : Config} {x y : Nat} (h : isDot c x y) : 0 < c.height := by
  have := h.2
  omega

theorem Config.coord_index {c : Config} {x y : Nat} (h : isDot c x y) :
    c.coord (c.index x y) = ⟨x, y⟩ := by
  have hp := Config.height_pos h
  unfold Config.coord Config.index
  rw [Nat.mul_comm, Nat.mul_add_div hp, Nat.mul_add_mod, Nat.mod_eq_of_lt h.2, Nat.div_eq_of_lt h.2]
  rfl

theorem Config.index_coord (c : Config) (i : Nat) :
    c.index (c.coord i).x (c.coord i).y = i := by
  unfold Config.coord Config.index
  rw [Nat.mul_comm]
  exact Nat.div_add_mod i c.height

theorem Config.coord_isDot {c : Config} {i : Nat} (h : i < c.nbits) :
    isDot c (c.coord i).x (c.coord i).y := by
  have hp : 0 < c.height := by
    rcases Nat.eq_zero_or_pos c.height with h0 | h0
    · simp [Config.nbits, h0] at h
    · exact h0
  exact ⟨Nat.div_lt_of_lt_mul (by rwa [Nat.mul_comm]), Nat.mod_lt _ hp⟩

theorem Config.byteOff_lt {c : Config} {i : Nat} (h : i < c.nbits) : byteOff i < c.nbytes := by
  unfold byteOff Config.nbytes
  omega

theorem bitOff_lt (i : Nat) : bitOff i < 8 := Nat.mod_lt _ (by omega)

/-- Two different bit indices never share a byte and a bit offset (R32). -/
theorem eq_of_byteOff_bitOff {i j : Nat} (hb : byteOff i = byteOff j) (ho : bitOff i = bitOff j) :
    i = j := by
  unfold byteOff at hb
  unfold bitOff at ho
  omega

/-- The address of a dot is inside the buffer: no access leaves it (R36, R38). -/
theorem Config.dot_byteOff_lt {c : Config} {x y : Nat} (h : isDot c x y) :
    byteOff (c.index x y) < c.nbytes := Config.byteOff_lt (Config.index_lt h)

end Sys2Proof
end

