-- ==== Sys2Proof/Laws/Ops.lean ====
section
/-! SUPPORT. What the shared operations do, said once. Every internal operation is a move: the head
registers take a value and events are emitted, and nothing else changes; `State.moved` names that
shape, its laws say what a move leaves, and each operation has one lemma that gives its move. -/

namespace Sys2Proof.Machine

/-! ## Events, one after another -/

@[simp] theorem State.emitAll_nil (s : State) : s.emitAll [] = s := rfl

@[simp] theorem State.emitAll_cons (s : State) (e : Event) (es : List Event) :
    s.emitAll (e :: es) = (s.emit e).emitAll es := rfl

theorem State.emitAll_append (s : State) (es fs : List Event) :
    s.emitAll (es ++ fs) = (s.emitAll es).emitAll fs := List.foldl_append ..

theorem Driven.run_append (c : Config) (d : Lines × Panel) (es fs : List Event) :
    Driven.run c d (es ++ fs) = Driven.run c (Driven.run c d es) fs := List.foldl_append ..

/-- Everything that emitting events does: the trace grows by them, they drive the lines and the
panel, and nothing else changes (R7, R16, R23). -/
theorem State.emitAll_eq (s : State) (es : List Event) :
    s.emitAll es = { s with
      trace := s.trace ++ es
      lines := (Driven.run s.cfg (s.lines, s.panel) es).1
      panel := (Driven.run s.cfg (s.lines, s.panel) es).2 } := by
  induction es generalizing s with
  | nil => simp [Driven.run]
  | cons e es ih =>
    rw [State.emitAll_cons, ih (s.emit e)]
    simp [State.emit, Driven.run, Driven.after]

/-! ## Moves -/

/-- The head registers take the value `h` and the events `es` are emitted. -/
def State.moved (s : State) (h : Option Pos) (es : List Event) : State := (s.setHead h).emitAll es

section moved
variable (s : State) (h : Option Pos) (es : List Event)

@[simp] theorem State.moved_cfg : (s.moved h es).cfg = s.cfg := by
  simp [State.moved, State.emitAll_eq]
@[simp] theorem State.moved_mode : (s.moved h es).mode = s.mode := by
  simp [State.moved, State.emitAll_eq]
@[simp] theorem State.moved_head : (s.moved h es).head = h := by
  simp [State.moved, State.emitAll_eq]
@[simp] theorem State.moved_cur : (s.moved h es).cur = s.cur := by
  simp [State.moved, State.emitAll_eq]
@[simp] theorem State.moved_com : (s.moved h es).com = s.com := by
  simp [State.moved, State.emitAll_eq]
@[simp] theorem State.moved_trace : (s.moved h es).trace = s.trace ++ es := by
  simp [State.moved, State.emitAll_eq]
@[simp] theorem State.moved_lines :
    (s.moved h es).lines = (Driven.run s.cfg (s.lines, s.panel) es).1 := by
  simp [State.moved, State.emitAll_eq]
@[simp] theorem State.moved_panel :
    (s.moved h es).panel = (Driven.run s.cfg (s.lines, s.panel) es).2 := by
  simp [State.moved, State.emitAll_eq]
@[simp] theorem State.moved_pending : (s.moved h es).pending = s.pending := by
  simp [State.moved, State.emitAll_eq]
@[simp] theorem State.moved_responses : (s.moved h es).responses = s.responses := by
  simp [State.moved, State.emitAll_eq]

@[simp] theorem State.moved_self : s.moved s.head [] = s := rfl

/-- Moves compose: the last head, the events in order. -/
@[simp] theorem State.moved_moved (h' : Option Pos) (es' : List Event) :
    (s.moved h es).moved h' es' = s.moved h' (es ++ es') := by
  simp [State.moved, State.emitAll_eq, State.setHead, Driven.run_append]

end moved

theorem State.emit_moved (s : State) (e : Event) : s.emit e = s.moved s.head [e] := rfl

theorem State.pulse_moved (s : State) (l : Line) (t : Nat) :
    s.pulse l t = s.moved s.head (pulseEvents l t) := rfl

/-! ## The events of the operations are the spec's lists -/

theorem pulseEvents_eq (l : Line) (t : Nat) : pulseEvents l t = Expect.pulse l t := by
  unfold pulseEvents delayEvents Expect.pulse
  by_cases h : t = 0
  · simp [h]
  · simp [h, Nat.pos_of_ne_zero h]

theorem polarityEvent_eq (v : Bool) : polarityEvent v = if v then .high .pol else .low .pol := rfl

/-! ## The internal operations as moves -/

/-- `Rst` (R70). -/
theorem State.rstOp_moved (s : State) :
    s.rstOp = s.moved (some ⟨0, 0⟩) (Expect.pulse .rst s.cfg.tReset) := by
  rw [← pulseEvents_eq]
  rfl

/-- `Stc` (R71). -/
theorem State.stcOp_moved (s : State) :
    s.stcOp = s.moved (s.head.map (Pos.nextColumn s.cfg)) (Expect.pulse .col s.cfg.tStep) := by
  rw [← pulseEvents_eq]
  rfl

/-- `Str` (R72). -/
theorem State.strOp_moved (s : State) :
    s.strOp = s.moved (s.head.map (Pos.nextRow s.cfg)) (Expect.pulse .row s.cfg.tStep) := by
  rw [← pulseEvents_eq]
  rfl

/-- `Commit` (R91). -/
theorem State.commitOp_moved (s : State) (v : Bool) :
    s.commitOp v = s.moved s.head (Expect.commit s.cfg v) := by
  unfold State.commitOp Expect.commit
  rw [State.pulse_moved, State.emit_moved, State.moved_moved, pulseEvents_eq, polarityEvent_eq]
  rfl

/-- The head after the step that follows a cell in row `y` (R95). -/
def Pos.advanced (c : Config) (y : Nat) (h : Pos) : Pos :=
  if y + 1 = c.height then h.nextColumn c else h.nextRow c

/-- `Advance` after cell number `i` (R95). -/
theorem State.advanceOp_moved (s : State) (i : Nat) :
    s.advanceOp (s.cfg.coord i).y =
      s.moved (s.head.map (Pos.advanced s.cfg (s.cfg.coord i).y)) (Expect.advance s.cfg i) := by
  unfold State.advanceOp Expect.advance
  by_cases hy : i % s.cfg.height + 1 = s.cfg.height
  · have hf : Pos.advanced s.cfg (s.cfg.coord i).y = Pos.nextColumn s.cfg := by
      funext h
      simp [Pos.advanced, Config.coord, hy]
    rw [hf, if_pos (by simpa [Config.coord] using hy), if_pos hy, State.stcOp_moved]
  · have hf : Pos.advanced s.cfg (s.cfg.coord i).y = Pos.nextRow s.cfg := by
      funext h
      simp [Pos.advanced, Config.coord, hy]
    rw [hf, if_neg (by simpa [Config.coord] using hy), if_neg hy, State.strOp_moved]

/-- The walk of the scan: from cell `i` the advance reaches cell `i + 1`, and from the last cell
the origin (R95). -/
theorem Config.advanced_coord (c : Config) {i : Nat} (hi : i < c.nbits) :
    Pos.advanced c (c.coord i).y (c.coord i) = c.coord ((i + 1) % c.nbits) := by
  have hd := Config.coord_isDot hi
  have hp := Config.height_pos hd
  obtain ⟨hx, hy⟩ := hd
  simp only [Config.coord] at hx hy
  have hdm := Nat.div_add_mod i c.height
  have hn : c.nbits = c.height * c.width := Nat.mul_comm ..
  change (if i % c.height + 1 = c.height then (⟨(i / c.height + 1) % c.width, 0⟩ : Pos)
    else ⟨i / c.height, (i % c.height + 1) % c.height⟩) =
    ⟨(i + 1) % c.nbits / c.height, (i + 1) % c.nbits % c.height⟩
  by_cases hlast : i % c.height + 1 = c.height
  · have hi1 : i + 1 = c.height * (i / c.height + 1) := by rw [Nat.mul_add]; omega
    rw [if_pos hlast, hi1, hn, Nat.mul_mod_mul_left, Nat.mul_div_cancel_left _ hp,
      Nat.mul_mod_right]
  · have hrow : i % c.height + 1 < c.height := by omega
    have hdiv : (i + 1) / c.height = i / c.height := by
      rw [← hdm, Nat.add_assoc, Nat.mul_add_div hp, Nat.div_eq_of_lt hrow]
      simp [Nat.mul_add_div hp, Nat.div_eq_of_lt hy]
    have hmod : (i + 1) % c.height = i % c.height + 1 := by
      conv_lhs => rw [← hdm]
      rw [Nat.add_assoc, Nat.mul_add_mod, Nat.mod_eq_of_lt hrow]
    have hlt : i + 1 < c.nbits := by
      have h1 : c.height * (i / c.height + 1) ≤ c.height * c.width := Nat.mul_le_mul_left _ hx
      rw [Nat.mul_add] at h1
      omega
    rw [if_neg hlast, Nat.mod_eq_of_lt hlt, hdiv, hmod, Nat.mod_eq_of_lt hrow]

/-- The commit of a changed cell (R98). -/
theorem State.commitIfChanged_moved (s : State) (a b : Bool) :
    s.commitIfChanged a b = s.moved s.head (if a != b then Expect.commit s.cfg a else []) := by
  unfold State.commitIfChanged
  by_cases h : a = b
  · simp [h]
  · simp [h, State.commitOp_moved]

/-- One cell of FCL (R96). -/
theorem State.fclCell_moved (s : State) (i : Nat) :
    s.fclCell i = s.moved (s.head.map (Pos.advanced s.cfg (s.cfg.coord i).y))
      (Expect.commit s.cfg false ++ Expect.advance s.cfg i) := by
  unfold State.fclCell
  rw [State.commitOp_moved]
  have h := State.advanceOp_moved (s.moved s.head (Expect.commit s.cfg false)) i
  simp only [State.moved_cfg, State.moved_head, State.moved_moved] at h
  exact h

/-- One cell of RDW (R98). -/
theorem State.rdwCell_moved (s : State) (i : Nat) :
    s.rdwCell i = s.moved (s.head.map (Pos.advanced s.cfg (s.cfg.coord i).y))
      ((if s.cellChanged i then
        Expect.commit s.cfg (s.currentBit (s.cfg.coord i).x (s.cfg.coord i).y) else []) ++
        Expect.advance s.cfg i) := by
  unfold State.rdwCell
  dsimp only
  rw [State.commitIfChanged_moved]
  have h := State.advanceOp_moved (s.moved s.head (if s.cellChanged i then
    Expect.commit s.cfg (s.currentBit (s.cfg.coord i).x (s.cfg.coord i).y) else [])) i
  simp only [State.moved_cfg, State.moved_head, State.moved_moved] at h
  exact h

/-- The two bits a scan reads do not change while it moves (R39, R40). -/
@[simp] theorem State.cellChanged_moved (s : State) (h : Option Pos) (es : List Event) (i : Nat) :
    (s.moved h es).cellChanged i = s.cellChanged i := by
  simp [State.cellChanged, State.currentBit, State.previousBit]

@[simp] theorem State.currentBit_moved (s : State) (h : Option Pos) (es : List Event) (x y : Nat) :
    (s.moved h es).currentBit x y = s.currentBit x y := by
  simp [State.currentBit]

@[simp] theorem State.previousBit_moved (s : State) (h : Option Pos) (es : List Event) (x y : Nat) :
    (s.moved h es).previousBit x y = s.previousBit x y := by
  simp [State.previousBit]

/-! ## What events do to the lines and the panel -/

@[simp] theorem Driven.run_nil (c : Config) (d : Lines × Panel) : Driven.run c d [] = d := rfl

@[simp] theorem Driven.run_cons (c : Config) (d : Lines × Panel) (e : Event) (es : List Event) :
    Driven.run c d (e :: es) = Driven.run c (Driven.after c d e) es := rfl

/-- A pulse leaves its line low, and the panel reacts to it once (R73, R111). -/
theorem Driven.run_pulse (c : Config) (ls : Lines) (p : Panel) {l : Line} (hl : l ≠ .pol) (t : Nat) :
    Driven.run c (ls, p) (Expect.pulse l t) =
      (ls.set l false, p.closed.completePulse c ls.pol l t) := by
  unfold Expect.pulse
  cases l <;> first
    | exact absurd rfl hl
    | (by_cases ht : t = 0 <;>
        simp [ht, Driven.after, Lines.after, Lines.set, Panel.react, Panel.closed])

/-- A polarity event sets the level and moves nothing on the panel (R91, R114). -/
theorem Driven.run_polarity (c : Config) (ls : Lines) (p : Panel) (v : Bool) :
    Driven.run c (ls, p) [if v then .high .pol else .low .pol] =
      (ls.set .pol v, if v || p.openPulse.isSome then p.closed else p) := by
  cases v
  · cases hp : p.openPulse with
    | none => simp [Driven.after, Lines.after, Panel.react, hp]
    | some o =>
      by_cases ho : o.line = .pol
      · simp [Driven.after, Lines.after, Panel.react, hp, ho, Panel.completePulse]
      · simp [Driven.after, Lines.after, Panel.react, hp, ho]
  · simp [Driven.after, Lines.after, Panel.react]

@[simp] theorem Panel.closed_closed (p : Panel) : p.closed.closed = p.closed := rfl

/-- A commit leaves the polarity line at its value and the commit line low, and the panel reacts
once, with the hold `T_COMMIT` (R91, R114). -/
theorem Driven.run_commit (c : Config) (ls : Lines) (p : Panel) (v : Bool) :
    Driven.run c (ls, p) (Expect.commit c v) =
      ((ls.set .pol v).set .cmt false, p.closed.commitPulse c v c.tCommit) := by
  unfold Expect.commit
  rw [Driven.run_append, Driven.run_polarity, Driven.run_pulse c _ _ (by decide)]
  split <;> simp [Lines.set, Panel.completePulse]

end Sys2Proof.Machine
end

