-- ==== Sys2Proof/Laws/Exec.lean ====
section
/-! SUPPORT. What each arm of exec and each case of step answers, and the laws of the dot matrix. -/

namespace Sys2Proof.Machine

/-! ## The arms of exec -/

theorem exec_rst (s : State) : exec .rst s = .next (s.rstOp.answer .ok 0#2) := rfl

theorem exec_stc (s : State) : exec .stc s = .next (s.stcOp.answer .ok 0#2) := rfl

theorem exec_str (s : State) : exec .str s = .next (s.strOp.answer .ok 0#2) := rfl

theorem exec_spx (s : State) {x y : Nat} (v : Bool) (h : isDot s.cfg x y) :
    exec (.spx x y v) s = .next ((s.setCur (s.cur.bitWrite s.cfg x y v)).answer .ok 0#2) := by
  have := (Config.inRange_iff s.cfg x y).2 h
  simp [exec, execSpx, this]

theorem exec_spx_outOfRange (s : State) {x y : Nat} (v : Bool) (h : ¬isDot s.cfg x y) :
    exec (.spx x y v) s = .next (s.raise .outOfRange) := by
  have := mt (Config.inRange_iff s.cfg x y).1 h
  simp [exec, execSpx, this]

theorem exec_clr (s : State) :
    exec .clr s = .next ((s.setCur (s.cur.clearAll s.cfg)).answer .ok 0#2) := rfl

theorem exec_gpx (s : State) {x y : Nat} (h : isDot s.cfg x y) :
    exec (.gpx x y) s =
      .next (s.answer .ok (pixelData (s.previousBit x y) (s.currentBit x y))) := by
  have := (Config.inRange_iff s.cfg x y).2 h
  simp [exec, execGpx, this, State.previousBit, State.currentBit]

theorem exec_gpx_outOfRange (s : State) {x y : Nat} (h : ¬isDot s.cfg x y) :
    exec (.gpx x y) s = .next (s.raise .outOfRange) := by
  have := mt (Config.inRange_iff s.cfg x y).1 h
  simp [exec, execGpx, this]

theorem exec_cmt (s : State) (v : Bool) : exec (.cmt v) s = .next ((s.commitOp v).answer .ok 0#2) := rfl

theorem exec_fcl (s : State) :
    exec .fcl s = .next ((s.rstOp.emit (.low .pol)).fclScan.answer .ok 0#2) := rfl

theorem exec_awr (s : State) {x y : Nat} (v : Bool) (h : isDot s.cfg x y)
    (hv : s.headValid = true) :
    exec (.awr x y v) s = .next (((s.walkTo x y).commitOp v).answer .ok 0#2) := by
  have := (Config.inRange_iff s.cfg x y).2 h
  simp [exec, execAwr, this, hv]

theorem exec_awr_headUndefined (s : State) {x y : Nat} (v : Bool) (h : isDot s.cfg x y)
    (hv : s.headValid = false) : exec (.awr x y v) s = .next (s.raise .headUndefined) := by
  have := (Config.inRange_iff s.cfg x y).2 h
  simp [exec, execAwr, this, hv]

theorem exec_awr_outOfRange (s : State) {x y : Nat} (v : Bool) (h : ¬isDot s.cfg x y) :
    exec (.awr x y v) s = .next (s.raise .outOfRange) := by
  have := mt (Config.inRange_iff s.cfg x y).1 h
  simp [exec, execAwr, this]

theorem exec_rdw (s : State) :
    exec .rdw s = .next (s.rstOp.rdwScan.commitBuffer.answer .ok 0#2) := rfl

/-! ## Dots -/

/-- The dot just written has its new polarity. -/
@[simp] theorem Panel.dot_setDot_same (p : Panel) (x y : Nat) (b : Bool) :
    (p.setDot x y b).dot x y = b := by
  simp [Panel.dot, Panel.setDot, Keyed.lookup_put_same]

/-- Every other dot keeps its polarity. -/
theorem Panel.dot_setDot_other (p : Panel) {x y x' y' : Nat} (b : Bool) (h : (x', y') ≠ (x, y)) :
    (p.setDot x y b).dot x' y' = p.dot x' y' := by
  simp [Panel.dot, Panel.setDot, Keyed.lookup_put_other dotLt h]

/-- A dot write keeps the canonical form of the dot list. -/
theorem Panel.setDot_wf (p : Panel) (x y : Nat) (b : Bool) (h : p.dotsWf) :
    (p.setDot x y b).dotsWf := by
  refine Keyed.put_sorted dotLt (x, y) b ?_ ?_ h
  · rintro ⟨a, b⟩ ⟨c, d⟩ ⟨e, f⟩
    simp [dotLt]
    omega
  · rintro ⟨a, b⟩ ⟨c, d⟩ hne
    have : a = c → b ≠ d := by
      rintro rfl rfl
      exact hne rfl
    simp [dotLt]
    omega

section stepHead
variable (f : Pos → Pos) (p : Panel)

@[simp] theorem Panel.stepHead_head : (p.stepHead f).head = p.head.map f := rfl
@[simp] theorem Panel.stepHead_dots : (p.stepHead f).dots = p.dots := rfl
@[simp] theorem Panel.stepHead_dot (x y : Nat) : (p.stepHead f).dot x y = p.dot x y := rfl
@[simp] theorem Panel.stepHead_openPulse : (p.stepHead f).openPulse = p.openPulse := rfl
@[simp] theorem Panel.stepHead_shortCommits : (p.stepHead f).shortCommits = p.shortCommits := rfl

/-- A step pulse counts as blind only while the head is unknown. -/
theorem Panel.stepHead_blindSteps :
    (p.stepHead f).blindSteps = if p.head.isNone then p.blindSteps + 1 else p.blindSteps := rfl

end stepHead

@[simp] theorem Panel.setDot_head (p : Panel) (x y : Nat) (b : Bool) :
    (p.setDot x y b).head = p.head := rfl

@[simp] theorem Panel.commitPulse_head (c : Config) (v : Bool) (t : Nat) (p : Panel) :
    (p.commitPulse c v t).head = p.head := rfl

@[simp] theorem Panel.commitPulse_blindSteps (c : Config) (v : Bool) (t : Nat) (p : Panel) :
    (p.commitPulse c v t).blindSteps = p.blindSteps := rfl

/-- A commit pulse moves no head, known or not: the next one addresses the same dot (R90, R114). -/
@[simp] theorem Panel.addressed_commitPulse (c c' : Config) (v : Bool) (t : Nat) (p : Panel) :
    (p.commitPulse c v t).addressed c' = p.addressed c' := rfl

/-- The block's own commit pulses are held for `T_COMMIT` and draw no outcome (R92). -/
@[simp] theorem Panel.commitPulse_shortCommits (c : Config) (v : Bool) (p : Panel) :
    (p.commitPulse c v c.tCommit).shortCommits = p.shortCommits := by
  simp [Panel.commitPulse]

/-- A commit pulse held long enough gives the addressed dot its polarity (R114). -/
theorem Panel.dot_commitPulse (c : Config) (v : Bool) (p : Panel) (x y : Nat) :
    (p.commitPulse c v c.tCommit).dot x y =
      if (x, y) = ((p.addressed c).x, (p.addressed c).y) then v else p.dot x y := by
  have hd : ∀ (q : Panel) (n : Nat), Panel.dot { q with shortCommits := n } x y = q.dot x y := fun _ _ => rfl
  unfold Panel.commitPulse
  rw [hd]
  have hc : p.committed c v c.tCommit (p.addressed c) = v := by simp [Panel.committed]
  rw [hc]
  split
  · rename_i h
    obtain ⟨h1, h2⟩ := Prod.mk.inj h
    rw [h1, h2, Panel.dot_setDot_same]
  · rename_i h
    exact Panel.dot_setDot_other p v h

@[simp] theorem Panel.closed_head (p : Panel) : p.closed.head = p.head := rfl
@[simp] theorem Panel.closed_addressed (c : Config) (p : Panel) :
    p.closed.addressed c = p.addressed c := rfl
@[simp] theorem Panel.closed_dot (p : Panel) (x y : Nat) : p.closed.dot x y = p.dot x y := rfl

end Sys2Proof.Machine
end

