-- ==== Sys2Proof/Laws/Sequencer.lean ====
section
/-! SUPPORT. What the scans of FCL and RDW and the walk of AWR do, each as one move (R95 to R98,
R101). -/

namespace Sys2Proof.Machine

/-! ## The scans -/

@[simp] theorem Config.coord_zero (c : Config) : c.coord 0 = ⟨0, 0⟩ := by simp [Config.coord]

/-- Where the head stands after `n` cells of a scan: at cell `n`, or at the origin after the last. -/
def scanPos (c : Config) (n : Nat) : Pos := if n = c.nbits then ⟨0, 0⟩ else c.coord n

/-- One advance of a scan (R95). -/
theorem scanPos_succ (c : Config) {n : Nat} (hn : n < c.nbits) :
    (some (scanPos c n)).map (Pos.advanced c (c.coord n).y) = some (scanPos c (n + 1)) := by
  have hne : n ≠ c.nbits := by omega
  simp only [scanPos, if_neg hne, Option.map_some, Config.advanced_coord c hn]
  by_cases hl : n + 1 = c.nbits
  · simp [hl]
  · simp [hl, Nat.mod_eq_of_lt (show n + 1 < c.nbits by omega)]

/-- The first `n` cells of FCL, from the origin (R96). -/
theorem State.fclCells_moved (s : State) (hh : s.head = some ⟨0, 0⟩) {n : Nat} (hn : n ≤ s.cfg.nbits) :
    (List.range n).foldl State.fclCell s = s.moved (some (if n = 0 then ⟨0, 0⟩ else scanPos s.cfg n))
      ((List.range n).flatMap fun i => Expect.commit s.cfg false ++ Expect.advance s.cfg i) := by
  induction n with
  | zero => simp [← hh]
  | succ n ih =>
    have hpos : (if n = 0 then ⟨0, 0⟩ else scanPos s.cfg n) = scanPos s.cfg n := by
      by_cases h0 : n = 0
      · have hne : 0 ≠ s.cfg.nbits := by omega
        simp [h0, scanPos, hne]
      · simp [h0]
    rw [List.range_succ, List.foldl_append, ih (by omega), List.foldl_cons, List.foldl_nil,
      State.fclCell_moved, hpos]
    simp only [State.moved_cfg, State.moved_head, State.moved_moved]
    rw [scanPos_succ _ (by omega)]
    simp

/-- The first `n` cells of RDW, from the origin (R98). -/
theorem State.rdwCells_moved (s : State) (hh : s.head = some ⟨0, 0⟩) {n : Nat} (hn : n ≤ s.cfg.nbits) :
    (List.range n).foldl State.rdwCell s = s.moved (some (if n = 0 then ⟨0, 0⟩ else scanPos s.cfg n))
      (Expect.redrawCells s (List.range n)) := by
  induction n with
  | zero => simp [← hh, Expect.redrawCells]
  | succ n ih =>
    have hpos : (if n = 0 then ⟨0, 0⟩ else scanPos s.cfg n) = scanPos s.cfg n := by
      by_cases h0 : n = 0
      · have hne : 0 ≠ s.cfg.nbits := by omega
        simp [h0, scanPos, hne]
      · simp [h0]
    rw [List.range_succ, List.foldl_append, ih (by omega), List.foldl_cons, List.foldl_nil,
      State.rdwCell_moved, hpos]
    simp only [State.moved_cfg, State.moved_head, State.moved_moved, State.cellChanged_moved,
      State.currentBit_moved]
    rw [scanPos_succ _ (by omega)]
    simp [Expect.redrawCells]

theorem scanPos_end (c : Config) : (if c.nbits = 0 then ⟨0, 0⟩ else scanPos c c.nbits) = (⟨0, 0⟩ : Pos) := by
  simp [scanPos]

/-- The whole of FCL but its response (R96). -/
theorem State.fclScan_moved (s : State) :
    (s.rstOp.emit (.low .pol)).fclScan = s.moved (some ⟨0, 0⟩) (Expect.fullClear s.cfg) := by
  unfold State.fclScan
  rw [State.fclCells_moved _ (by simp [State.rstOp_moved]) le_rfl, scanPos_end]
  simp [State.rstOp_moved, State.emit_moved, Expect.fullClear]

/-- The events of cells depend only on the geometry, the durations and the two buffers. -/
theorem Expect.redrawCells_congr {s t : State} (is : List Nat) (h1 : t.cfg = s.cfg)
    (h2 : t.cur = s.cur) (h3 : t.com = s.com) : Expect.redrawCells t is = Expect.redrawCells s is := by
  simp [Expect.redrawCells, State.cellChanged, State.currentBit, State.previousBit, h1, h2, h3]

/-- The whole of RDW but the copy and its response (R98). -/
theorem State.rdwScan_moved (s : State) :
    s.rstOp.rdwScan = s.moved (some ⟨0, 0⟩) (Expect.redraw s) := by
  have hr := State.rstOp_moved s
  unfold State.rdwScan
  rw [State.rdwCells_moved _ (by simp [hr]) le_rfl, scanPos_end,
    Expect.redrawCells_congr (s := s) _ (by simp [hr]) (by simp [hr]) (by simp [hr])]
  simp [hr, Expect.redraw]

/-! ## The walk of AWR -/

/-- The distance to a target is 0 only at the target. -/
theorem eq_of_distance_zero {a b n : Nat} (ha : a < n) (hb : b < n) (h : (b + n - a) % n = 0) : a = b := by
  rcases Nat.lt_or_ge b a with hl | hl
  · rw [Nat.mod_eq_of_lt (by omega)] at h
    omega
  · rw [show b + n - a = (b - a) + n by omega, Nat.add_mod_right, Nat.mod_eq_of_lt (by omega)] at h
    omega

theorem distance_self {a n : Nat} (ha : a < n) : (a + n - a) % n = 0 := by
  rw [show a + n - a = n by omega, Nat.mod_self]

/-- A step towards a target, modulo the bound, brings it nearer by one (R101). -/
theorem distance_step {a b n k : Nat} (ha : a < n) (hb : b < n) (h : (b + n - a) % n = k + 1) :
    (b + n - (a + 1) % n) % n = k := by
  rcases Nat.lt_or_ge b a with hl | hl
  · rw [Nat.mod_eq_of_lt (show b + n - a < n by omega)] at h
    rcases Nat.lt_or_ge (a + 1) n with h1 | h1
    · rw [Nat.mod_eq_of_lt h1, Nat.mod_eq_of_lt (by omega)]
      omega
    · rw [show a + 1 = n by omega, Nat.mod_self, Nat.sub_zero, Nat.add_mod_right,
        Nat.mod_eq_of_lt hb]
      omega
  · rw [show b + n - a = (b - a) + n by omega, Nat.add_mod_right, Nat.mod_eq_of_lt (by omega)] at h
    rw [Nat.mod_eq_of_lt (show a + 1 < n by omega),
      show b + n - (a + 1) = (b - (a + 1)) + n by omega, Nat.add_mod_right,
      Nat.mod_eq_of_lt (by omega)]
    omega

/-- The column loop runs as many times as its target is steps away, and ends at it (R97, R101). -/
theorem State.stepColumnsTo_moved {x : Nat} (k n : Nat) (s : State) (h : Pos) (hs : s.head = some h)
    (hx : x < s.cfg.width) (hd : h.x < s.cfg.width) (hk : (x + s.cfg.width - h.x) % s.cfg.width = k)
    (hn : k ≤ n) :
    State.stepColumnsTo x n s =
      s.moved (some (if k = 0 then h else ⟨x, 0⟩)) (Expect.steps s.cfg .col k) := by
  induction k generalizing n s h with
  | zero =>
    have hhx : s.head.map Pos.x = some x := by rw [hs, eq_of_distance_zero hd hx hk |>.symm]; rfl
    have : State.stepColumnsTo x n s = s := by
      cases n with
      | zero => rfl
      | succ n => exact if_pos hhx
    rw [this, if_pos rfl, ← hs]
    rfl
  | succ k ih =>
    obtain ⟨n, rfl⟩ : ∃ m, n = m + 1 := ⟨n - 1, by omega⟩
    have hne : ¬s.head.map Pos.x = some x := by
      rw [hs]
      intro e
      have e : h.x = x := by simpa using e
      rw [← e, distance_self hd] at hk
      omega
    have hlt : (h.x + 1) % s.cfg.width < s.cfg.width := Nat.mod_lt _ (by omega)
    have hk' := distance_step hd hx hk
    have hc : s.stcOp.cfg = s.cfg := by simp [State.stcOp_moved]
    have step := ih n s.stcOp ⟨(h.x + 1) % s.cfg.width, 0⟩
      (by simp [State.stcOp_moved, hs, Pos.nextColumn]) (by rwa [hc]) (by rwa [hc]) (by rwa [hc])
      (by omega)
    rw [State.stepColumnsTo, if_neg hne, step, hc, State.stcOp_moved, State.moved_moved]
    congr 1
    by_cases h0 : k = 0
    · subst h0
      simp [eq_of_distance_zero hlt hx hk']
    · simp [h0]

/-- The row loop likewise; the column does not move (R97, R101). -/
theorem State.stepRowsTo_moved {y : Nat} (k n : Nat) (s : State) (h : Pos) (hs : s.head = some h)
    (hy : y < s.cfg.height) (hd : h.y < s.cfg.height)
    (hk : (y + s.cfg.height - h.y) % s.cfg.height = k) (hn : k ≤ n) :
    State.stepRowsTo y n s = s.moved (some ⟨h.x, y⟩) (Expect.steps s.cfg .row k) := by
  induction k generalizing n s h with
  | zero =>
    have e := eq_of_distance_zero hd hy hk
    have hhy : s.head.map Pos.y = some y := by rw [hs, ← e]; rfl
    have : State.stepRowsTo y n s = s := by
      cases n with
      | zero => rfl
      | succ n => exact if_pos hhy
    rw [this, ← e, ← hs]
    rfl
  | succ k ih =>
    obtain ⟨n, rfl⟩ : ∃ m, n = m + 1 := ⟨n - 1, by omega⟩
    have hne : ¬s.head.map Pos.y = some y := by
      rw [hs]
      intro e
      have e : h.y = y := by simpa using e
      rw [← e, distance_self hd] at hk
      omega
    have hc : s.strOp.cfg = s.cfg := by simp [State.strOp_moved]
    have step := ih n s.strOp ⟨h.x, (h.y + 1) % s.cfg.height⟩
      (by simp [State.strOp_moved, hs, Pos.nextRow]) (by rwa [hc])
      (by rw [hc]; exact Nat.mod_lt _ (by omega)) (by rw [hc]; exact distance_step hd hy hk) (by omega)
    rw [State.stepRowsTo, if_neg hne, step, hc, State.strOp_moved, State.moved_moved]
    rfl

/-- The walk of AWR ends at its target, with the step counts of R97. -/
theorem State.walkTo_moved (s : State) {h : Pos} {x y : Nat} (hs : s.head = some h)
    (hd : isDot s.cfg h.x h.y) (hx : x < s.cfg.width) (hy : y < s.cfg.height) :
    s.walkTo x y = s.moved (some ⟨x, y⟩)
      (Expect.steps s.cfg .col (Expect.columnSteps s.cfg h x) ++
        Expect.steps s.cfg .row (Expect.rowSteps s.cfg h x y)) := by
  unfold State.walkTo
  rw [State.stepColumnsTo_moved (Expect.columnSteps s.cfg h x) _ s h hs hx hd.1 rfl
    (Nat.mod_lt _ (by omega)).le]
  by_cases h0 : Expect.columnSteps s.cfg h x = 0
  · have e := eq_of_distance_zero hd.1 hx h0
    have hr : Expect.rowSteps s.cfg h x y = (y + s.cfg.height - h.y) % s.cfg.height := by
      simp [Expect.rowSteps, h0]
    rw [if_pos h0, State.stepRowsTo_moved (Expect.rowSteps s.cfg h x y) _ _ h (by simp) (by simpa)
      (by simpa using hd.2) (by simp [hr]) (by rw [hr]; exact (Nat.mod_lt _ (by omega)).le)]
    simp [e]
  · have hr : Expect.rowSteps s.cfg h x y = y := by simp [Expect.rowSteps, h0]
    rw [if_neg h0, State.stepRowsTo_moved (Expect.rowSteps s.cfg h x y) _ _ ⟨x, 0⟩ (by simp) (by simpa)
      (by simp; omega) (by simp [hr, Nat.mod_eq_of_lt hy]) (by rw [hr]; omega)]
    simp

end Sys2Proof.Machine
end

