-- ==== Sys2Proof/Laws/Elementary.lean ====
section
/-! SUPPORT. What any command can do, said once: a sequence of the elementary operations `Rst`,
`Stc`, `Str`, `Commit(v)` and `Low(POL)`, then a write of the buffers, then one response. An
invariant of the machine follows from the elementary operations and the three buffer writes. -/

namespace Sys2Proof.Machine

/-- `t` is reached from `s` by elementary operations (R70 to R72, R91, R96). -/
inductive Elementary : State → State → Prop where
  | refl (s : State) : Elementary s s
  | rst {s t : State} : Elementary s t → Elementary s t.rstOp
  | stc {s t : State} : Elementary s t → Elementary s t.stcOp
  | str {s t : State} : Elementary s t → Elementary s t.strOp
  | commit {s t : State} (v : Bool) : Elementary s t → Elementary s (t.commitOp v)
  | polLow {s t : State} : Elementary s t → Elementary s (t.emit (.low .pol))

theorem Elementary.trans {s t u : State} (h : Elementary s t) (k : Elementary t u) : Elementary s u := by
  induction k with
  | refl => exact h
  | rst _ ih => exact ih.rst
  | stc _ ih => exact ih.stc
  | str _ ih => exact ih.str
  | commit v _ ih => exact ih.commit v
  | polLow _ ih => exact ih.polLow

theorem Elementary.advance {s t : State} (y : Nat) (h : Elementary s t) :
    Elementary s (t.advanceOp y) := by
  unfold State.advanceOp
  split
  · exact h.stc
  · exact h.str

theorem Elementary.fold {f : State → Nat → State} (hf : ∀ t i, Elementary t (f t i)) (is : List Nat)
    (s : State) : Elementary s (is.foldl f s) := by
  induction is generalizing s with
  | nil => exact .refl s
  | cons i is ih => exact (hf s i).trans (ih (f s i))

theorem Elementary.fclCell (t : State) (i : Nat) : Elementary t (t.fclCell i) :=
  ((Elementary.refl t).commit false).advance _

theorem Elementary.rdwCell (t : State) (i : Nat) : Elementary t (t.rdwCell i) := by
  unfold State.rdwCell State.commitIfChanged
  dsimp only
  split
  · exact (Elementary.refl t).advance _
  · exact ((Elementary.refl t).commit _).advance _

theorem Elementary.stepColumnsTo (x n : Nat) (s : State) : Elementary s (State.stepColumnsTo x n s) := by
  induction n generalizing s with
  | zero => exact .refl s
  | succ n ih =>
    unfold State.stepColumnsTo
    split
    · exact .refl s
    · exact (Elementary.refl s).stc.trans (ih s.stcOp)

theorem Elementary.stepRowsTo (y n : Nat) (s : State) : Elementary s (State.stepRowsTo y n s) := by
  induction n generalizing s with
  | zero => exact .refl s
  | succ n ih =>
    unfold State.stepRowsTo
    split
    · exact .refl s
    · exact (Elementary.refl s).str.trans (ih s.strOp)

/-- Elementary operations are one move: some head, some events. -/
theorem Elementary.moved {s t : State} (h : Elementary s t) : ∃ p es, t = s.moved p es := by
  induction h with
  | refl => exact ⟨_, [], (State.moved_self s).symm⟩
  | rst _ ih =>
    obtain ⟨p, es, rfl⟩ := ih
    exact ⟨_, _, by rw [State.rstOp_moved, State.moved_moved]⟩
  | stc _ ih =>
    obtain ⟨p, es, rfl⟩ := ih
    exact ⟨_, _, by rw [State.stcOp_moved, State.moved_moved]⟩
  | str _ ih =>
    obtain ⟨p, es, rfl⟩ := ih
    exact ⟨_, _, by rw [State.strOp_moved, State.moved_moved]⟩
  | commit v _ ih =>
    obtain ⟨p, es, rfl⟩ := ih
    exact ⟨_, _, by rw [State.commitOp_moved, State.moved_moved]⟩
  | polLow _ ih =>
    obtain ⟨p, es, rfl⟩ := ih
    exact ⟨_, _, by rw [State.emit_moved, State.moved_moved]⟩

/-- Everything a command can do: elementary operations, then at most one buffer write, then one
response. -/
theorem exec_cases {i : Instr} {s t : State} (h : exec i s = .next t) :
    ∃ u m n st d, Elementary s u ∧ t = ((u.setCur m).setCom n).answer st d ∧
      (m = s.cur ∨ m = s.cur.clearAll s.cfg ∨
        ∃ x y v, isDot s.cfg x y ∧ m = s.cur.bitWrite s.cfg x y v) ∧
      (n = s.com ∨ n = s.com.copyFrom s.cfg s.cur) := by
  have plain : ∀ (u : State) (st : Status) (d : BitVec 2), Elementary s u →
      .next (u.answer st d) = (.next t : Host.Outcome State Fault Refusal) →
      ∃ u m n st d, Elementary s u ∧ t = ((u.setCur m).setCom n).answer st d ∧
        (m = s.cur ∨ m = s.cur.clearAll s.cfg ∨
          ∃ x y v, isDot s.cfg x y ∧ m = s.cur.bitWrite s.cfg x y v) ∧
        (n = s.com ∨ n = s.com.copyFrom s.cfg s.cur) := by
    intro u st d hu ht
    injection ht with ht
    obtain ⟨p, es, rfl⟩ := hu.moved
    refine ⟨_, s.cur, s.com, st, d, hu, ?_, .inl rfl, .inl rfl⟩
    rw [← ht]
    have h1 := State.moved_cur s p es
    have h2 := State.moved_com s p es
    simp only [State.setCur, State.setCom]
    rw [← h1, ← h2]
  cases i with
  | rst => exact plain _ _ _ (Elementary.refl s).rst h
  | stc => exact plain _ _ _ (Elementary.refl s).stc h
  | str => exact plain _ _ _ (Elementary.refl s).str h
  | spx x y v =>
    by_cases hd : isDot s.cfg x y
    · rw [exec_spx s v hd] at h
      injection h with h
      exact ⟨s, s.cur.bitWrite s.cfg x y v, s.com, .ok, 0#2, .refl s, h.symm,
        .inr (.inr ⟨x, y, v, hd, rfl⟩), .inl rfl⟩
    · rw [exec_spx_outOfRange s v hd] at h
      exact plain _ _ _ (.refl s) h
  | clr =>
    rw [exec_clr] at h
    injection h with h
    exact ⟨s, s.cur.clearAll s.cfg, s.com, .ok, 0#2, .refl s, h.symm, .inr (.inl rfl), .inl rfl⟩
  | gpx x y =>
    by_cases hd : isDot s.cfg x y
    · rw [exec_gpx s hd] at h
      exact plain _ _ _ (.refl s) h
    · rw [exec_gpx_outOfRange s hd] at h
      exact plain _ _ _ (.refl s) h
  | cmt v => exact plain _ _ _ ((Elementary.refl s).commit v) h
  | fcl =>
    exact plain _ _ _ ((Elementary.refl s).rst.polLow.trans (Elementary.fold Elementary.fclCell _ _)) h
  | awr x y v =>
    by_cases hd : isDot s.cfg x y
    · cases hv : s.headValid with
      | true =>
        rw [exec_awr s v hd hv] at h
        exact plain _ _ _
          (((Elementary.stepColumnsTo x _ s).trans (Elementary.stepRowsTo y _ _)).commit v) h
      | false =>
        rw [exec_awr_headUndefined s v hd hv] at h
        exact plain _ _ _ (.refl s) h
    · rw [exec_awr_outOfRange s v hd] at h
      exact plain _ _ _ (.refl s) h
  | rdw =>
    rw [exec_rdw] at h
    injection h with h
    have hu : Elementary s s.rstOp.rdwScan :=
      (Elementary.refl s).rst.trans (Elementary.fold Elementary.rdwCell _ _)
    refine ⟨_, s.cur, _, .ok, 0#2, hu, ?_, .inl rfl, .inr rfl⟩
    obtain ⟨p, es, he⟩ := hu.moved
    rw [← h, he]
    simp only [State.commitBuffer, State.setCur, State.setCom, State.moved_cur, State.moved_com,
      State.moved_cfg]

/-- How every command ends: one response after those the host has, its own words left, and, when
the response is not OK, nothing else changed and data `00`; only GPX answers other data. -/
theorem exec_answers {i : Instr} {s t : State} (h : exec i s = .next t) :
    ∃ u st d, t = State.answer u st d ∧ u.responses = s.responses ∧ u.pending = s.pending ∧
      (st ≠ .ok → u = s ∧ d = 0#2) ∧ ((∀ x y, i ≠ .gpx x y) → d = 0#2) := by
  have done : ∀ u : State, Elementary s u →
      .next (u.answer .ok 0#2) = (.next t : Host.Outcome State Fault Refusal) →
      ∃ u st d, t = State.answer u st d ∧ u.responses = s.responses ∧ u.pending = s.pending ∧
        (st ≠ .ok → u = s ∧ d = 0#2) ∧ ((∀ x y, i ≠ .gpx x y) → d = 0#2) := by
    intro u hu ht
    injection ht with ht
    obtain ⟨p, es, rfl⟩ := hu.moved
    exact ⟨_, _, _, ht.symm, by simp, by simp, by simp, by simp⟩
  cases i with
  | rst => exact done _ (.rst (.refl s)) h
  | stc => exact done _ (.stc (.refl s)) h
  | str => exact done _ (.str (.refl s)) h
  | cmt v => exact done _ (.commit v (.refl s)) h
  | fcl => exact done _ ((Elementary.refl s).rst.polLow.trans (Elementary.fold Elementary.fclCell _ _)) h
  | clr =>
    injection h with h
    exact ⟨_, _, _, h.symm, rfl, rfl, by simp, by simp⟩
  | rdw =>
    have hu := (Elementary.refl s).rst.trans
      (Elementary.fold Elementary.rdwCell (List.range s.rstOp.cfg.nbits) _)
    obtain ⟨p, es, he⟩ := hu.moved
    rw [exec_rdw] at h
    injection h with h
    refine ⟨_, _, _, h.symm, ?_, ?_, by simp, by simp⟩
    · exact (congrArg State.responses he).trans (State.moved_responses s p es)
    · exact (congrArg State.pending he).trans (State.moved_pending s p es)
  | spx x y v =>
    simp only [exec, execSpx] at h
    split at h <;> injection h with h <;> exact ⟨_, _, _, h.symm, rfl, rfl, by simp, by simp⟩
  | gpx x y =>
    simp only [exec, execGpx] at h
    split at h <;> injection h with h <;> exact ⟨_, _, _, h.symm, rfl, rfl, by simp, by simp⟩
  | awr x y v =>
    by_cases hd : isDot s.cfg x y
    · cases hv : s.headValid with
      | true =>
        rw [exec_awr s v hd hv] at h
        exact done _ (((Elementary.stepColumnsTo x _ s).trans (Elementary.stepRowsTo y _ _)).commit v) h
      | false =>
        rw [exec_awr_headUndefined s v hd hv] at h
        injection h with h
        exact ⟨_, _, _, h.symm, rfl, rfl, by simp, by simp⟩
    · rw [exec_awr_outOfRange s v hd] at h
      injection h with h
      exact ⟨_, _, _, h.symm, rfl, rfl, by simp, by simp⟩

/-- Everything a step can do: nothing when the host presents no word, an IllegalCommand response,
or the command the word decodes to. -/
theorem step_cases {s t : State} (h : step s = .next t) :
    (s.pending = [] ∧ t = s) ∨
    ∃ w rest, s.pending = w :: rest ∧
      ((∃ e, decode w = .error e ∧ t = State.answer { s with pending := rest } .illegalCommand 0#2) ∨
        ∃ i, decode w = .ok i ∧ exec i { s with pending := rest } = .next t) := by
  cases hp : s.pending with
  | nil =>
    rw [step, State.takeCommand_nil s hp] at h
    injection h with h
    exact .inl ⟨rfl, h.symm⟩
  | cons w rest =>
    right
    refine ⟨w, rest, rfl, ?_⟩
    rw [step, State.takeCommand_cons s w hp] at h
    dsimp only at h
    split at h
    · rename_i i hi
      exact .inr ⟨i, hi, h⟩
    · rename_i e he
      injection h with h
      exact .inl ⟨e, he, h.symm⟩

end Sys2Proof.Machine
end

