-- ==== Sys2Proof/Tests/Slice0.lean ====
section
/-! SUPPORT. The model's own tests, with the expected results taken from spec/95_test_vectors.md and
the tables of spec/30_encoding.md, and for every obligation that has hypotheses a named witness
that meets all of them together. -/

namespace Sys2Proof.Tests

open Sys2Proof.Machine

/-! ## Small states -/

/-- A block and panel of these sizes right after power-on reset, with the default durations. -/
def blank (w h : Nat) : State := State.powerOn ⟨w, h, 1, 600, 0⟩

/-- The same with both heads at a place. -/
def placed (w h x y : Nat) : State :=
  let s := blank w h
  { s with head := some ⟨x, y⟩, panel := { s.panel with head := some ⟨x, y⟩ } }

/-- The state with these bytes in the two buffers. -/
def withBuffers (s : State) (cur com : Memory) : State := { s with cur := cur, com := com }

/-- The 2x2 panel with these four dots, in scan order, and the heads at the origin. -/
def dotted (a b c d : Bool) : State :=
  let s := placed 2 2 0 0
  { s with panel := { s.panel with dots := [((0, 0), a), ((0, 1), b), ((1, 0), c), ((1, 1), d)] } }

/-- The state after one command, or the state itself if the command has no next state. -/
def after (i : Instr) (s : State) : State :=
  match exec i s with
  | .next t => t
  | .fault _ => s
  | .refused _ => s

/-- The four dots of a 2x2 panel in scan order. -/
def fourDots (s : State) : List Bool := [s.dot 0 0, s.dot 0 1, s.dot 1 0, s.dot 1 1]

/-! ## Well-formedness: an operand that does not fit its field is an assembler error (R57) -/

theorem test_wf_spx_column : ¬(Instr.spx 4096 0 true).wf := by decide
theorem test_wf_spx_row : ¬(Instr.spx 0 4096 true).wf := by decide
theorem test_wf_gpx_column : ¬(Instr.gpx 4096 0).wf := by decide
theorem test_wf_gpx_row : ¬(Instr.gpx 0 4096).wf := by decide
theorem test_wf_awr_column : ¬(Instr.awr 4096 0 false).wf := by decide
theorem test_wf_awr_row : ¬(Instr.awr 0 4096 false).wf := by decide

/-! ## Decoding: words written out from the pattern column of R53 -/

theorem test_decode_rst :
    decode (0b0001#4 ++ 0b000#3 ++ 0b0#1 ++ 0b000000000000#12 ++ 0b000000000000#12) = .ok .rst := by
  decide
theorem test_decode_stc :
    decode (0b0010#4 ++ 0b000#3 ++ 0b0#1 ++ 0b000000000000#12 ++ 0b000000000000#12) = .ok .stc := by
  decide
theorem test_decode_str :
    decode (0b0011#4 ++ 0b000#3 ++ 0b0#1 ++ 0b000000000000#12 ++ 0b000000000000#12) = .ok .str := by
  decide
/-- E4: SPX 5, 3, 1. -/
theorem test_decode_spx :
    decode (0b0100#4 ++ 0b000#3 ++ 0b1#1 ++ 0b000000000101#12 ++ 0b000000000011#12) =
      .ok (.spx 5 3 true) := by
  decide
theorem test_decode_clr :
    decode (0b0101#4 ++ 0b000#3 ++ 0b0#1 ++ 0b000000000000#12 ++ 0b000000000000#12) = .ok .clr := by
  decide
/-- E8: GPX 5, 3. -/
theorem test_decode_gpx :
    decode (0b0110#4 ++ 0b000#3 ++ 0b0#1 ++ 0b000000000101#12 ++ 0b000000000011#12) =
      .ok (.gpx 5 3) := by
  decide
/-- E9: CMT 1. -/
theorem test_decode_cmt :
    decode (0b1000#4 ++ 0b000#3 ++ 0b1#1 ++ 0b000000000000#12 ++ 0b000000000000#12) =
      .ok (.cmt true) := by
  decide
theorem test_decode_fcl :
    decode (0b1001#4 ++ 0b000#3 ++ 0b0#1 ++ 0b000000000000#12 ++ 0b000000000000#12) = .ok .fcl := by
  decide
/-- E12: AWR 3, 2, 1. -/
theorem test_decode_awr :
    decode (0b1010#4 ++ 0b000#3 ++ 0b1#1 ++ 0b000000000011#12 ++ 0b000000000010#12) =
      .ok (.awr 3 2 true) := by
  decide
theorem test_decode_rdw :
    decode (0b1011#4 ++ 0b000#3 ++ 0b0#1 ++ 0b000000000000#12 ++ 0b000000000000#12) = .ok .rdw := by
  decide

/-- E15 to E17 and E23: the reserved opcodes, whatever the operand bits. -/
theorem test_decode_reserved_opcodes :
    decode 0x00000000#32 = .error .reservedOpcode ∧ decode 0xFFFFFFFF#32 = .error .reservedOpcode ∧
      decode 0x70000000#32 = .error .reservedOpcode ∧ decode 0xC2FFFFFF#32 = .error .reservedOpcode ∧
      decode 0xD0000000#32 = .error .reservedOpcode ∧ decode 0xE0000000#32 = .error .reservedOpcode := by
  decide

/-- E18 to E20 and E22: a non-zero unused field. -/
theorem test_decode_unused_fields :
    decode 0x10000001#32 = .error .unusedField ∧ decode 0x11000000#32 = .error .unusedField ∧
      decode 0x61005003#32 = .error .unusedField ∧ decode 0x80000001#32 = .error .unusedField := by
  decide

/-- E21: SPX with `RSV = 001`. -/
theorem test_decode_reserved_bits : decode 0x43005003#32 = .error .reservedBits := by decide

/-- The response words listed after the decode table of 95_test_vectors.md. -/
theorem test_response_words :
    (Response.mk .ok 0b11#2).word = 0x00000003#32 ∧ (Response.mk .outOfRange 0#2).word = 0x10000000#32 ∧
      (Response.mk .illegalCommand 0#2).word = 0x20000000#32 ∧
      (Response.mk .headUndefined 0#2).word = 0x30000000#32 := by
  decide

/-- A1 to A9: the address decoder on 32x16. -/
theorem test_address_decoder :
    [(0, 0), (0, 7), (0, 8), (0, 15), (1, 0), (5, 3), (17, 9), (31, 0), (31, 15)].map
        (fun p => let i := Config.default.index p.1 p.2; (i, byteOff i, bitOff i)) =
      [(0, 0, 0), (7, 0, 7), (8, 1, 0), (15, 1, 7), (16, 2, 0), (83, 10, 3), (281, 35, 1), (496, 62, 0),
        (511, 63, 7)] := by
  decide

/-! ## The host's two functions -/

theorem test_decodeTableWord :
    decodeTableWord 32 0x41005003 = some (.spx 5 3 true) ∧ decodeTableWord 32 0 = none := by decide

/-- The word stored for the fetch is the one the next step runs: X1 as a first command. -/
theorem test_withFetchWord :
    step (State.reset.withFetchWord 32 0xA1003002) =
      .next { State.reset with responses := [⟨.headUndefined, 0#2⟩] } :=
  rfl

/-! ## One command on a small state -/

/-- H2: RST from (7, 3). -/
theorem test_rst_head : (after .rst (placed 32 16 7 3)).head = some ⟨0, 0⟩ := by decide
/-- H1: its events. -/
theorem test_rst_events : (after .rst (blank 32 16)).trace = [.high .rst, .low .rst] := by decide
/-- H4: the column wraps, and the row is re-homed. -/
theorem test_stc_wraps : (after .stc (placed 32 16 31 15)).head = some ⟨0, 0⟩ := by decide
/-- H9: a blind step still pulses. -/
theorem test_stc_blind :
    (after .stc (blank 32 16)).trace = [.high .col, .delay 1, .low .col] ∧
      (after .stc (blank 32 16)).head = none := by decide
/-- H8: the row wraps and the column does not move. -/
theorem test_str_wraps : (after .str (placed 32 16 4 15)).head = some ⟨4, 0⟩ := by decide
/-- H7: its events. -/
theorem test_str_events : (after .str (placed 32 16 4 9)).trace = [.high .row, .delay 1, .low .row] := by
  decide
/-- B2: SPX 0, 7, 0 clears bit 7 only. -/
theorem test_spx_clears_one_bit :
    (after (.spx 0 7 false) (withBuffers (blank 32 16) [(0, 0x89#8)] [])).cur = [(0, 0x09#8)] := by
  decide
/-- B9: the last valid dot. -/
theorem test_spx_last_dot : (after (.spx 31 15 true) (blank 32 16)).cur = [(63, 0x80#8)] := by decide
/-- B5: CLR. -/
theorem test_clr :
    (after .clr (withBuffers (blank 32 16) [(0, 0x09#8), (1, 0x01#8)] [(1, 0x01#8)])).cur = [] := by
  decide
/-- B8: the data of GPX 5, 3 with the dot cleared in `CUR` only. -/
theorem test_gpx_previous :
    (after (.gpx 5 3) (withBuffers (blank 32 16) [] [(10, 0x08#8)])).responses = [⟨.ok, 0b10#2⟩] := by
  decide
/-- B6: the data of GPX 5, 3 with the dot set in `CUR` only. -/
theorem test_gpx_current :
    (after (.gpx 5 3) (withBuffers (blank 32 16) [(10, 0x08#8)] [])).responses = [⟨.ok, 0b01#2⟩] := by
  decide
/-- K1: CMT 1, on dot (1, 1) of the panel as in V2. -/
theorem test_cmt_on :
    (after (.cmt true) (placed 2 2 1 1)).trace = [.high .pol, .high .cmt, .delay 600, .low .cmt] ∧
      (after (.cmt true) (placed 2 2 1 1)).dot 1 1 = true := by decide
/-- K2: CMT 0. -/
theorem test_cmt_off :
    (after (.cmt false) (placed 2 2 1 1)).trace = [.low .pol, .high .cmt, .delay 600, .low .cmt] := by
  decide
/-- P4: the events of FCL on 2x2. -/
theorem test_fcl_events :
    (after .fcl (blank 2 2)).trace =
      [.high .rst, .low .rst, .low .pol,
       .low .pol, .high .cmt, .delay 600, .low .cmt, .high .row, .delay 1, .low .row,
       .low .pol, .high .cmt, .delay 600, .low .cmt, .high .col, .delay 1, .low .col,
       .low .pol, .high .cmt, .delay 600, .low .cmt, .high .row, .delay 1, .low .row,
       .low .pol, .high .cmt, .delay 600, .low .cmt, .high .col, .delay 1, .low .col] := by
  decide
/-- V1: FCL turns every dot off. -/
theorem test_fcl_dots : fourDots (after .fcl (dotted true false true true)) = [false, false, false, false] := by
  decide
/-- Q5: AWR 3, 1, 0 from (3, 2) makes 15 row steps, wrapping, in 615 microseconds. -/
theorem test_awr_row_wrap :
    (let t := after (.awr 3 1 false) (placed 32 16 3 2)
     (t.head, pulsesOf .col t.trace, pulsesOf .row t.trace, requestedDelay t.trace)) =
      (some ⟨3, 1⟩, 0, 15, 615) := by
  decide
set_option maxRecDepth 4000 in
/-- Q6: AWR 1, 5, 1 from (3, 1) makes 30 column and 5 row steps, in 635 microseconds. -/
theorem test_awr_column_wrap :
    (let t := after (.awr 1 5 true) (placed 32 16 3 1)
     (t.head, pulsesOf .col t.trace, pulsesOf .row t.trace, requestedDelay t.trace)) =
      (some ⟨1, 5⟩, 30, 5, 635) := by
  decide
/-- Q13: RDW on 2x2, one dot cleared, one set, one left on. -/
theorem test_rdw_events :
    (after .rdw (withBuffers (placed 2 2 1 1) [(0, 0x0C#8)] [(0, 0x06#8)])).trace =
      [.high .rst, .low .rst, .high .row, .delay 1, .low .row,
       .low .pol, .high .cmt, .delay 600, .low .cmt, .high .col, .delay 1, .low .col,
       .high .row, .delay 1, .low .row,
       .high .pol, .high .cmt, .delay 600, .low .cmt, .high .col, .delay 1, .low .col] := by
  decide
/-- P6, the last RDW: the panel shows the current buffer. -/
theorem test_rdw_dots :
    fourDots (after .rdw (withBuffers (dotted false true true false) [(0, 0x0C#8)] [(0, 0x06#8)])) =
      [false, false, true, true] := by
  decide

/-- X2 and X4: OutOfRange outranks HeadUndefined, and needs no head. -/
theorem test_fault_priority :
    exec (.awr 32 0 true) (blank 32 16) =
        .next { blank 32 16 with responses := [⟨.outOfRange, 0#2⟩] } ∧
      exec (.awr 0 16 true) (placed 32 16 1 5) =
        .next { placed 32 16 1 5 with responses := [⟨.outOfRange, 0#2⟩] } :=
  ⟨rfl, rfl⟩

/-- A commit pulse held too short, and one abandoned by another edge, on the panel alone: the dot
is not forced to the new polarity (R111, R114). -/
theorem test_abandoned_pulse :
    ((dotted false false false false).panel.react (blank 2 2).cfg true (.high .cmt)
      |>.react (blank 2 2).cfg true (.delay 600) |>.react (blank 2 2).cfg true (.high .col)
      |>.react (blank 2 2).cfg true (.low .cmt)).dot 0 0 = false := by
  decide

/-- R90: two CMT in a row before any reset pulse address the same dot. -/
theorem test_blind_commits_same_dot :
    (after (.cmt true) (blank 2 2)).panel.addressed (blank 2 2).cfg =
      (blank 2 2).panel.addressed (blank 2 2).cfg := rfl

/-- R140: power-on reset of the block leaves the dots and the head of the panel. -/
theorem test_powerCycle_panel :
    (placed 2 2 1 1).powerCycle.panel.head = some ⟨1, 1⟩ ∧ (placed 2 2 1 1).powerCycle.head = none ∧
      fourDots (dotted true false true true).powerCycle = [true, false, true, true] := by decide

/-! ## Witnesses: every obligation's hypotheses can be met together -/

/-- A state of the 2x2 panel that meets the whole invariant, heads at (1, 1), dots written. -/
def sound : State := { dotted true false true true with
  cur := [(0, 0x0C#8)], com := [(0, 0x0D#8)], head := some ⟨1, 1⟩,
  panel := { (dotted true false true true).panel with head := some ⟨1, 1⟩ } }

theorem test_sound_inv : sound.Inv := by
  constructor <;> first | rfl | decide | exact (by decide : isDot (blank 2 2).cfg 1 1)

theorem test_reset_inv : State.reset.Inv := by
  constructor <;> first | rfl | exact trivial | decide

/-- `COM = 0x0D` holds the dots 1, 0, 1, 1 of the panel. -/
theorem test_sound_mirrors : sound.mirrors := by
  intro x y h
  have hx : x = 0 ∨ x = 1 := by have := h.1; change x < 2 at this; omega
  have hy : y = 0 ∨ y = 1 := by have := h.2; change y < 2 at this; omega
  rcases hx with rfl | rfl <;> rcases hy with rfl | rfl <;> decide

/-- The state in which the host presents these words next. -/
def presents (s : State) (ws : List Word) : State := { s with pending := ws }

theorem test_wit_DecodeOfEncode :
    Instr.rst.wf ∧ Instr.stc.wf ∧ Instr.str.wf ∧ (Instr.spx 0 4095 true).wf ∧ Instr.clr.wf ∧
      (Instr.gpx 4095 0).wf ∧ (Instr.cmt false).wf ∧ Instr.fcl.wf ∧ (Instr.awr 4095 4095 false).wf ∧
      Instr.rdw.wf := by
  decide
theorem test_wit_AssemblyFormula : (Instr.spx 4095 4095 true).wf ∧ (Instr.cmt true).wf := by decide
theorem test_wit_EncodeOfDecode : decode 0xA1FFF000#32 = .ok (.awr 4095 0 true) := by decide
theorem test_wit_IndexIsBijective :
    Config.default.wf ∧ 31 < Config.default.width ∧ 15 < Config.default.height ∧
      0 < Config.default.width ∧ 0 < Config.default.height ∧
      511 < Config.default.nbits ∧ 0 < Config.default.nbits ∧ Config.wf ⟨2048, 2048, 0, 1, 0⟩ := by
  decide
theorem test_wit_ByteAndBitOffsets :
    0 < (blank 3 3).cfg.nbits ∧ 8 < (blank 3 3).cfg.nbits ∧ isDot (blank 3 3).cfg 0 0 ∧
      isDot (blank 3 3).cfg 2 2 := by decide
theorem test_wit_BitWriteChangesOneBit :
    2 < (blank 3 3).cfg.width ∧ 2 < (blank 3 3).cfg.height ∧ ((0, 0) : Nat × Nat) ≠ (2, 2) ∧
      7 ≠ bitOff ((blank 3 3).cfg.index 2 2) ∧ 0 ≠ byteOff ((blank 3 3).cfg.index 2 2) := by
  decide
theorem test_wit_StepRunsDecodedCommand :
    (presents sound [0xB0000000#32]).pending = 0xB0000000#32 :: [] ∧
      decode 0xB0000000#32 = .ok .rdw := by decide
theorem test_wit_IllegalCommandFaults :
    (presents sound [0x43005003#32]).pending = 0x43005003#32 :: [] ∧
      decode 0x43005003#32 = .error .reservedBits := by decide
theorem test_wit_IdleStepHoldsState : sound.pending = [] := rfl
theorem test_wit_OneResponsePerCommand :
    (∃ t, (presents sound [0x60000000#32]).pending = [0x60000000#32] ∧
      step (presents sound [0x60000000#32]) = .next t ∧ t.responses = [⟨.ok, 0b10#2⟩]) ∧
    (∃ t, step (presents sound [0x60002000#32]) = .next t ∧ t.responses = [⟨.outOfRange, 0#2⟩]) ∧
    ∀ x y, decode 0xB0000000#32 ≠ .ok (.gpx x y) := by
  refine ⟨⟨_, rfl, rfl, by decide⟩, ⟨_, rfl, by decide⟩, fun x y h => ?_⟩
  rw [show decode 0xB0000000#32 = .ok .rdw by decide] at h
  cases h
theorem test_wit_FaultsChangeNothing :
    ∃ t r, exec (.spx 2 0 true) sound = .next t ∧ t.responses = sound.responses ++ [r] ∧
      r.status ≠ .ok :=
  ⟨_, ⟨.outOfRange, 0#2⟩, rfl, rfl, by decide⟩
theorem test_wit_PowerOnSatisfiesInv : Config.wf ⟨1, 1, 0, 1, 0⟩ ∧ Config.wf ⟨2048, 2048, 1, 600, 0⟩ := by
  decide
theorem test_wit_PowerCycleResetsBlockNotPanel : sound.Inv := test_sound_inv
theorem test_wit_StcCompletes : sound.head = some ⟨1, 1⟩ ∧ (blank 2 2).head = none := by decide
theorem test_wit_StrCompletes : sound.head = some ⟨1, 1⟩ ∧ (blank 2 2).head = none := by decide
theorem test_wit_ColumnStepsWrapAround :
    sound.head = some ⟨1, 1⟩ ∧ isDot sound.cfg 1 1 ∧ 2 = sound.cfg.width := by decide
theorem test_wit_RowStepsWrapAround :
    sound.head = some ⟨1, 1⟩ ∧ isDot sound.cfg 1 1 ∧ 2 = sound.cfg.height := by decide
theorem test_wit_StepsReachEveryDot :
    31 < (blank 32 16).cfg.width ∧ 15 < (blank 32 16).cfg.height ∧ 0 < 31 ∧ 0 < (blank 32 16).cfg.width := by
  decide
theorem test_wit_SpxCompletes :
    0x41FFF000#32 &&& 0xFE000000#32 = 0x40000000#32 ∧
    (31 < State.reset.cfg.width ∧ 15 < State.reset.cfg.height ∧
      7 ≠ bitOff (State.reset.cfg.index 0 0) ∧ 1 ≠ byteOff (State.reset.cfg.index 0 0)) ∧
      State.reset.cfg.width ≤ 32 ∧ State.reset.cfg.height ≤ 16 := by decide
theorem test_wit_ClrCompletes : 0 < sound.cfg.nbytes ∧ sound.cfg.nbytes ≤ 1 := by decide
theorem test_wit_GpxCompletes : 1 < sound.cfg.width ∧ 1 < sound.cfg.height := by decide
theorem test_wit_PixelWritesCommute :
    sound.cur.wf ∧ isDot sound.cfg 0 0 ∧ isDot sound.cfg 1 1 ∧ ((0, 0) : Nat × Nat) ≠ (1, 1) := by decide
theorem test_wit_OutOfRangeFaults : sound.cfg.width ≤ 2 ∧ sound.cfg.height ≤ 2 := by decide
theorem test_wit_NegativeImagesAreOutOfRange :
    sound.cfg.wf ∧ (0xFFF#12).getLsbD 11 = true ∧ (0x800#12).getLsbD 11 = true := by decide
theorem test_wit_CmtCompletes : sound.panel.head = some ⟨1, 1⟩ := rfl
theorem test_wit_FclCompletes : sound.lines.atRest := by decide
theorem test_wit_AwrCompletes :
    sound.head = some ⟨1, 1⟩ ∧ isDot sound.cfg 1 1 ∧ 0 < sound.cfg.width ∧ 0 < sound.cfg.height ∧
      sound.lines.atRest := by decide
theorem test_wit_AwrHeadUndefinedFaults :
    State.reset.head = none ∧ 31 < State.reset.cfg.width ∧ 15 < State.reset.cfg.height := by decide
/-- Dot (0, 0), cell 0, is the one cell of `sound` where the buffers differ. -/
theorem test_wit_RdwCompletes :
    (0 < sound.cfg.nbits ∧ sound.cellChanged 0 = true ∧
      (∀ j < sound.cfg.nbits, 0 < j → sound.cellChanged j = false)) ∧
      (∀ j < State.reset.cfg.nbits, State.reset.cellChanged j = false) ∧ sound.lines.atRest ∧
      sound.cfg.nbytes ≤ 1 := by
  refine ⟨by decide, fun j _ => ?_, by decide, by decide⟩
  simp [State.cellChanged, State.currentBit, State.previousBit, State.reset, State.powerOn]
theorem test_wit_FclCosts : sound.cfg.wf ∧ State.reset.cfg.wf := by decide
theorem test_wit_RdwCosts : sound.cfg.wf ∧ State.reset.cfg.wf := by decide
/-- A target in the head's column, and one in another column. -/
theorem test_wit_AwrCosts :
    sound.head = some ⟨1, 1⟩ ∧ isDot sound.cfg 1 1 ∧ 1 < sound.cfg.width ∧ 0 < sound.cfg.width ∧
      0 < sound.cfg.height := by decide
theorem test_wit_RdwCommitsInScanPosition :
    0 < sound.cfg.width ∧ 0 < sound.cfg.height ∧ sound.currentBit 0 0 ≠ sound.previousBit 0 0 := by decide
theorem test_wit_SecondRedrawFiresNoCommit : ∃ t, exec .rdw sound = .next t := ⟨_, rfl⟩
theorem test_wit_MinimalPulsing :
    31 < State.reset.cfg.width ∧ 15 < State.reset.cfg.height ∧
      ∀ k, k < State.reset.cfg.nbytes → State.reset.com.read k = 0x00#8 :=
  ⟨by decide, by decide, fun _ _ => rfl⟩
theorem test_wit_EventsDriveLinesAndPanel :
    ∃ t, step (presents sound [0x90000000#32]) = .next t ∧ t.trace ≠ sound.trace :=
  ⟨_, rfl, by decide⟩
theorem test_wit_StepKeepsHeadAgreement :
    ∃ t, (presents sound [0x20000000#32]).headsAgree ∧
      step (presents sound [0x20000000#32]) = .next t ∧ t.head = some ⟨0, 0⟩ :=
  ⟨_, rfl, rfl, by decide⟩
theorem test_wit_CommitFlipsTheAddressedDot :
    sound.panel.head = some ⟨1, 1⟩ ∧ ((0, 0) : Nat × Nat) ≠ (1, 1) := by decide
theorem test_wit_BlindCommitFlipsOneUnknownDot :
    State.reset.cfg.wf ∧ State.reset.panel.head = none ∧ State.reset.cfg.nbits = 512 := by decide
theorem test_wit_ResetPulsesAgreeTheHeads :
    Instr.rst ∈ [Instr.rst, .fcl, .rdw] ∧ Instr.fcl ∈ [Instr.rst, .fcl, .rdw] ∧
      Instr.rdw ∈ [Instr.rst, .fcl, .rdw] := by decide
theorem test_wit_StepsAndBufferCommandsChangeNoDot :
    ∀ i ∈ [Instr.rst, .stc, .str, .spx 1 1 true, .clr, .gpx 1 1],
      i ∈ [Instr.rst, .stc, .str, .spx 1 1 true, .clr, .gpx 1 1] := by decide
theorem test_wit_FclBlanksThePanel : isDot sound.cfg 0 0 ∧ isDot sound.cfg 1 1 := by decide
theorem test_wit_RdwShowsTheCurrentBuffer : sound.mirrors ∧ isDot sound.cfg 1 1 :=
  ⟨test_sound_mirrors, by decide⟩
/-- Two targets of the panel: `COM` holds 0 for dot (0, 1) and 1 for dot (0, 0). -/
theorem test_wit_AwrSetsItsDot :
    sound.head = some ⟨1, 1⟩ ∧ sound.headsAgree ∧ isDot sound.cfg 1 1 ∧ 0 < sound.cfg.width ∧
      1 < sound.cfg.height ∧ sound.mirrors ∧ sound.previousBit 0 1 = false ∧ sound.previousBit 0 0 = true :=
  ⟨rfl, rfl, by decide, by decide, by decide, test_sound_mirrors, by decide, by decide⟩
theorem test_wit_BootSequenceEstablishesAgreement : 0 < sound.cfg.nbytes ∧ isDot sound.cfg 1 1 := by decide
theorem test_wit_StaleCommittedBufferHazard :
    isDot sound.cfg 1 1 ∧ sound.currentBit 1 1 = true ∧ sound.previousBit 1 1 = true := by decide
theorem test_wit_StepKeepsInv :
    ∃ t, (presents sound [0xA1000001#32]).Inv ∧ step (presents sound [0xA1000001#32]) = .next t ∧
      t.head = some ⟨0, 1⟩ :=
  ⟨_, { test_sound_inv with }, rfl, by decide⟩
theorem test_wit_WhoWritesTheBuffers :
    (∃ t, exec .clr sound = .next t ∧ Instr.clr ≠ .rdw) ∧
      ∃ t, exec .rdw sound = .next t ∧ Instr.rdw ≠ .clr ∧ ∀ x y v, Instr.rdw ≠ .spx x y v :=
  ⟨⟨_, rfl, by decide⟩, _, rfl, by decide, fun _ _ _ => nofun⟩
theorem test_wit_WhoDefinesTheHead :
    (∃ t, exec .stc sound = .next t ∧ sound.headValid = true) ∧
      ∃ t, exec .rst State.reset = .next t ∧ State.reset.headValid = false ∧ t.headValid = true :=
  ⟨⟨_, rfl, rfl⟩, _, rfl, rfl, rfl⟩
theorem test_wit_ParametersNeverChange : ∃ t, step (presents sound [0xB0000000#32]) = .next t := ⟨_, rfl⟩
theorem test_wit_PanelIsNeverObserved : ∃ t, step (presents sound [0xB0000000#32]) = .next t := ⟨_, rfl⟩
theorem test_wit_LinesAreNeverRead : ∃ t, step (presents sound [0xB0000000#32]) = .next t := ⟨_, rfl⟩

end Sys2Proof.Tests
end

section
/-! PROOFS. The byte and bit offsets of a dot (20_memory.md R31). -/

namespace Sys2Proof

open Machine

theorem eight_mul_byteOff_add_bitOff (i : Nat) : 8 * byteOff i + bitOff i = i :=
  Nat.div_add_mod i 8

theorem byteOff_eq_shiftRight (i : Nat) : byteOff i = i >>> 3 :=
  (Nat.shiftRight_eq_div_pow i 3).symm

theorem bitOff_eq_and (i : Nat) : bitOff i = i &&& 7 :=
  (Nat.and_two_pow_sub_one_eq_mod i 3).symm

/-- `BitRead` takes the bit of weight `2 ^ BitOff` of its byte (R31, R33). -/
theorem Machine.Memory.bitRead_iff (c : Config) (m : Memory) (x y : Nat) :
    m.bitRead c x y = true ↔
      (m.read (byteOff (c.index x y))).toNat / 2 ^ bitOff (c.index x y) % 2 = 1 := by
  rw [Memory.bitRead, ← BitVec.testBit_toNat, Nat.testBit_eq_decide_div_mod_eq, decide_eq_true_iff]

/-- Settles O9: the offsets are quotient and remainder by 8, and `BitRead` reads by weight. -/
theorem byteAndBitOffsets : Obligations.ByteAndBitOffsets := by
  refine ⟨fun c i hi => ?_, fun c m x y _ => Memory.bitRead_iff c m x y⟩
  have hbyte : byteOff i + 1 ≤ c.nbytes := Config.byteOff_lt hi
  have hbit : bitOff i ≤ 7 := Nat.le_of_lt_succ (bitOff_lt i)
  exact ⟨rfl, rfl, hbyte, hbit, eight_mul_byteOff_add_bitOff i, byteOff_eq_shiftRight i,
    bitOff_eq_and i⟩

end Sys2Proof
end

section
/-! PROOFS. The scan-head commands RST, STC, STR (40_scan_head.md R70 to R72): each is a move of the
head registers with one pulse, answered `(OK, 00)`. What such a move leaves is said once, below. -/

namespace Sys2Proof

open Machine

section movedAnswer
variable (s : State) (h : Option Pos) (es : List Event) (st : Status) (d : BitVec 2)

theorem Machine.State.keepsBuffers_moved_answer : s.keepsBuffers ((s.moved h es).answer st d) := by
  simp [State.keepsBuffers]

theorem Machine.State.keepsRest_moved_answer : s.keepsRest ((s.moved h es).answer st d) := by
  simp [State.keepsRest]

theorem Machine.State.answers_moved_answer : s.answers ((s.moved h es).answer st d) st d := by
  simp [State.answers]

end movedAnswer

/-- A pulse ends with its line low and the other four as they were (R16, R73). -/
theorem Machine.State.lines_moved_pulse (s : State) (h : Option Pos) {l : Line} (hl : l ≠ .pol)
    (n : Nat) : (s.moved h (Expect.pulse l n)).lines = s.lines.set l false := by
  rw [State.moved_lines, Driven.run_pulse s.cfg s.lines s.panel hl]

/-- Everything the scan-head statements say of a move with one pulse, its head apart. -/
theorem Machine.State.moved_pulse_answerOk (s : State) (h : Option Pos) {l : Line} (hl : l ≠ .pol)
    (n : Nat) {t : State} (ht : t = (s.moved h (Expect.pulse l n)).answer .ok 0#2) :
    t.trace = s.trace ++ Expect.pulse l n ∧ t.lines = s.lines.set l false ∧
      s.keepsBuffers t ∧ s.keepsRest t ∧ s.answers t .ok 0#2 := by
  subst ht
  exact ⟨State.moved_trace .., State.lines_moved_pulse s h hl n, State.keepsBuffers_moved_answer ..,
    State.keepsRest_moved_answer .., State.answers_moved_answer ..⟩

/-- Settles O20: `Rst` moves the head to the origin with one reset pulse. -/
theorem rstCompletes : Obligations.RstCompletes := by
  refine ⟨rfl, fun s => ⟨_, exec_rst s, ?_⟩⟩
  rw [State.rstOp_moved]
  exact ⟨State.moved_head .., State.moved_pulse_answerOk s _ (by decide) _ rfl⟩

/-- Settles O21: `Stc` moves the head, if there is one, by `Pos.nextColumn`, with one column pulse
either way. -/
theorem stcCompletes : Obligations.StcCompletes := by
  refine ⟨rfl, fun s => ⟨_, exec_stc s, ?_⟩⟩
  rw [State.stcOp_moved]
  refine ⟨fun h hs => ?_, fun hs => ?_, State.moved_pulse_answerOk s _ (by decide) _ rfl⟩
  · simp [hs, Pos.nextColumn]
  · simp [hs]

/-- Settles O22: `Str` moves the head, if there is one, by `Pos.nextRow`, with one row pulse either
way. -/
theorem strCompletes : Obligations.StrCompletes := by
  refine ⟨rfl, fun s => ⟨_, exec_str s, ?_⟩⟩
  rw [State.strOp_moved]
  refine ⟨fun h hs => ?_, fun hs => ?_, State.moved_pulse_answerOk s _ (by decide) _ rfl⟩
  · simp [hs, Pos.nextRow]
  · simp [hs]

end Sys2Proof
end

section
/-! PROOFS. The frame-buffer commands SPX and CLR (41_frame_buffer.md R80, R81): each replaces `CUR`
and answers `(OK, 00)`. What that leaves unchanged is said once; what it writes is said by the laws
of `bitWrite` and `clearAll`. -/

namespace Sys2Proof

open Machine

/-- A new `CUR` and an answer leave everything else as it was. -/
theorem Machine.State.setCur_answer_frame (s : State) (m : Memory) (st : Status) (d : BitVec 2)
    {t : State} (ht : t = (s.setCur m).answer st d) :
    t.com = s.com ∧ (∀ k, t.com.read k = s.com.read k) ∧
      s.keepsOutputs t ∧ s.keepsRest t ∧ s.answers t st d := by
  subst ht
  exact ⟨rfl, fun _ => rfl, ⟨rfl, rfl, rfl, rfl⟩, ⟨rfl, rfl, rfl⟩, rfl⟩

section bitWrite
variable (c : Config) (m : Memory) (x y : Nat) (v : Bool)

/-- Each bit of the one byte a bit write touches (R34). -/
theorem Machine.Memory.getLsbD_read_bitWrite {b : Nat} (hb : b < 8) :
    ((m.bitWrite c x y v).read (byteOff (c.index x y))).getLsbD b =
      if b = bitOff (c.index x y) then v
      else (m.read (byteOff (c.index x y))).getLsbD b := by
  rw [Memory.bitWrite, Memory.read_write_same, getLsbD_bitUpdate _ _ hb]

/-- A bit write touches one byte only (R34). -/
theorem Machine.Memory.read_bitWrite_other {k : Nat} (hk : k ≠ byteOff (c.index x y)) :
    (m.bitWrite c x y v).read k = m.read k :=
  Memory.read_write_other m _ hk

end bitWrite

/-- The words of the SPX row decode to SPX with their fields as operands (R53). -/
theorem decode_spx {w : Word} (hw : w &&& Opcode.spx.mask = Opcode.spx.pattern) :
    decode w = .ok (.spx (xField w).toNat (yField w).toNat (vField w)) := by
  obtain ⟨hop, hrsv, hunused⟩ := (Opcode.selects_iff_fields w .spx).1 hw
  exact decode_of_fields hop hrsv hunused

/-- Settles O26: in range, SPX is one bit write to `CUR`; otherwise it raises `OutOfRange`. -/
theorem spxCompletes : Obligations.SpxCompletes := by
  refine ⟨fun w hw => decode_spx hw, fun s x y v hx hy => ?_, fun s x y v hout => ?_⟩
  · refine ⟨_, exec_spx s v ⟨hx, hy⟩, ?_, fun b hb hne => ?_, fun k hk => ?_,
      State.setCur_answer_frame s _ .ok 0#2 rfl⟩
    · exact (Memory.getLsbD_read_bitWrite s.cfg s.cur x y v (bitOff_lt _)).trans (if_pos rfl)
    · exact (Memory.getLsbD_read_bitWrite s.cfg s.cur x y v hb).trans (if_neg hne)
    · exact Memory.read_bitWrite_other s.cfg s.cur x y v hk
  · have hdot : ¬isDot s.cfg x y := fun ⟨hx, hy⟩ => by omega
    exact exec_spx_outOfRange s v hdot

/-- Settles O27: CLR is `clearAll` on `CUR`. -/
theorem clrCompletes : Obligations.ClrCompletes := by
  refine ⟨rfl, fun s => ⟨_, exec_clr s, fun k hk => ?_, fun k hk => ?_,
    State.setCur_answer_frame s _ .ok 0#2 rfl⟩⟩
  · simp [Memory.read_clearAll, hk]
  · simp [Memory.read_clearAll, Nat.not_lt.2 hk]

end Sys2Proof
end

section
/-! PROOFS. The commit primitive CMT (42_commit.md R90, R91): the events of one commit with the head
registers kept, answered `(OK, 00)`. -/

namespace Sys2Proof

open Machine

section movedCommit
variable (s : State) (h : Option Pos) (v : Bool)

/-- A commit ends with the polarity line at its value and the commit line low (R91). -/
theorem Machine.State.lines_moved_commit :
    (s.moved h (Expect.commit s.cfg v)).lines = { s.lines with pol := v, cmt := false } := by
  rw [State.moved_lines, Driven.run_commit]
  rfl

/-- After a commit the dot the panel addresses has its value, and every other dot is as before
(R114). -/
theorem Machine.State.dot_moved_commit (x y : Nat) :
    (s.moved h (Expect.commit s.cfg v)).dot x y =
      if (x, y) = ((s.panel.addressed s.cfg).x, (s.panel.addressed s.cfg).y) then v
      else s.dot x y := by
  rw [State.dot, State.moved_panel, Driven.run_commit, Panel.dot_commitPulse]
  rfl

end movedCommit

/-- With a known head the panel addresses the dot under it (R114). -/
theorem Machine.Panel.addressed_of_head {p : Panel} {h : Pos} (hp : p.head = some h) (c : Config) :
    p.addressed c = h := by
  simp [Panel.addressed, hp]

/-- Settles O32: `Commit` emits its events with the head registers kept, and the panel reacts to
them at the dot it addresses. -/
theorem cmtCompletes : Obligations.CmtCompletes := by
  intro s v
  refine ⟨_, exec_cmt s v, ?_⟩
  rw [State.commitOp_moved]
  refine ⟨State.moved_head .., State.moved_trace .., State.lines_moved_commit s s.head v,
    fun h hp => ?_, State.keepsBuffers_moved_answer .., State.keepsRest_moved_answer ..,
    State.answers_moved_answer ..⟩
  have hdot := State.dot_moved_commit s s.head v h.x h.y
  rw [Panel.addressed_of_head hp, if_pos rfl] at hdot
  exact hdot

end Sys2Proof
end

section
/-! PROOFS. The redraw RDW (43_driver_sequences.md R98): its scan is one move, already given by
`State.rdwScan_moved`, so what is left to say is what the events of the scan do to the line levels.
The scan is taken apart at the last changed cell, the last one to drive the polarity line. -/

namespace Sys2Proof

open Machine

/-! ## Levels of the lines -/

/-- Driving one line does not move the polarity line, unless it is the one driven (R16). -/
theorem Machine.Lines.pol_set_other (ls : Lines) {l : Line} (hl : l ≠ .pol) (b : Bool) :
    (ls.set l b).pol = ls.pol :=
  Lines.get_set_other ls b hl.symm

/-- Driving a line low leaves resting pulse lines at rest. -/
theorem Machine.Lines.atRest_set_low {ls : Lines} (h : ls.atRest) (l : Line) :
    (ls.set l false).atRest := by
  obtain ⟨hcol, hrow, hrst, hcmt⟩ := h
  cases l <;> simp [Lines.set, hcol, hrow, hrst, hcmt]

/-! ## Levels after the event lists of a scan -/

section levels
variable (c : Config) (d : Lines × Panel)

/-- An advance is one step pulse: it ends with one of the two step lines low (R73, R95). -/
theorem Machine.Driven.lines_run_advance (i : Nat) :
    ∃ l, l ≠ .pol ∧ (Driven.run c d (Expect.advance c i)).1 = d.1.set l false := by
  unfold Expect.advance
  split
  · exact ⟨.col, by decide, congrArg Prod.fst (Driven.run_pulse c d.1 d.2 (by decide) c.tStep)⟩
  · exact ⟨.row, by decide, congrArg Prod.fst (Driven.run_pulse c d.1 d.2 (by decide) c.tStep)⟩

theorem Machine.Driven.pol_run_advance (i : Nat) :
    (Driven.run c d (Expect.advance c i)).1.pol = d.1.pol := by
  obtain ⟨l, hl, hrun⟩ := Driven.lines_run_advance c d i
  rw [hrun, Lines.pol_set_other d.1 hl]

theorem Machine.Driven.atRest_run_advance (h : d.1.atRest) (i : Nat) :
    (Driven.run c d (Expect.advance c i)).1.atRest := by
  obtain ⟨l, -, hrun⟩ := Driven.lines_run_advance c d i
  rw [hrun]
  exact Lines.atRest_set_low h l

theorem Machine.Driven.pol_run_commit (v : Bool) :
    (Driven.run c d (Expect.commit c v)).1.pol = v :=
  congrArg (fun e : Lines × Panel => e.1.pol) (Driven.run_commit c d.1 d.2 v)

theorem Machine.Driven.atRest_run_commit (h : d.1.atRest) (v : Bool) :
    (Driven.run c d (Expect.commit c v)).1.atRest := by
  rw [Driven.run_commit c d.1 d.2 v]
  exact Lines.atRest_set_low (ls := d.1.set .pol v) h .cmt

end levels

/-! ## Levels after the cells of RDW -/

theorem Machine.Expect.redrawCells_append (s : State) (is js : List Nat) :
    Expect.redrawCells s (is ++ js) = Expect.redrawCells s is ++ Expect.redrawCells s js :=
  List.flatMap_append

/-- A cell whose two bits agree is only its advance (R98). -/
theorem Machine.Expect.redrawCells_cons_unchanged {s : State} {i : Nat}
    (hi : s.cellChanged i = false) (is : List Nat) :
    Expect.redrawCells s (i :: is) = Expect.advance s.cfg i ++ Expect.redrawCells s is := by
  simp [Expect.redrawCells, hi]

/-- A cell whose two bits differ is the commit of its current bit, then its advance (R98). -/
theorem Machine.Expect.redrawCells_cons_changed {s : State} {i : Nat}
    (hi : s.cellChanged i = true) (is : List Nat) :
    Expect.redrawCells s (i :: is) =
      Expect.commit s.cfg (s.currentBit (s.cfg.coord i).x (s.cfg.coord i).y) ++
        Expect.advance s.cfg i ++ Expect.redrawCells s is := by
  simp [Expect.redrawCells, hi]

section cells
variable (s : State) (d : Lines × Panel)

/-- Every cell of RDW leaves resting pulse lines at rest (R98). -/
theorem Machine.Driven.atRest_run_redrawCells (h : d.1.atRest) (is : List Nat) :
    (Driven.run s.cfg d (Expect.redrawCells s is)).1.atRest := by
  induction is generalizing d with
  | nil => exact h
  | cons i is ih =>
    cases hi : s.cellChanged i with
    | false =>
      rw [Expect.redrawCells_cons_unchanged hi, Driven.run_append]
      exact ih _ (Driven.atRest_run_advance s.cfg d h i)
    | true =>
      rw [Expect.redrawCells_cons_changed hi, Driven.run_append, Driven.run_append]
      exact ih _ (Driven.atRest_run_advance s.cfg _ (Driven.atRest_run_commit s.cfg d h _) i)

/-- Unchanged cells do not touch the polarity line (R98). -/
theorem Machine.Driven.pol_run_redrawCells_unchanged (is : List Nat)
    (h : ∀ i ∈ is, s.cellChanged i = false) :
    (Driven.run s.cfg d (Expect.redrawCells s is)).1.pol = d.1.pol := by
  induction is generalizing d with
  | nil => rfl
  | cons i is ih =>
    obtain ⟨hi, his⟩ := List.forall_mem_cons.1 h
    rw [Expect.redrawCells_cons_unchanged hi, Driven.run_append, ih _ his,
      Driven.pol_run_advance]

/-- A changed cell followed by unchanged ones leaves the polarity line at its current bit, whatever
the cells before it did (R98). -/
theorem Machine.Driven.pol_run_redrawCells_lastChanged (before : List Nat) {i : Nat}
    (after : List Nat) (hi : s.cellChanged i = true) (h : ∀ j ∈ after, s.cellChanged j = false) :
    (Driven.run s.cfg d (Expect.redrawCells s (before ++ i :: after))).1.pol =
      s.currentBit (s.cfg.coord i).x (s.cfg.coord i).y := by
  rw [Expect.redrawCells_append, Expect.redrawCells_cons_changed hi]
  simp only [Driven.run_append]
  rw [Driven.pol_run_redrawCells_unchanged s _ after h, Driven.pol_run_advance,
    Driven.pol_run_commit]

end cells

/-- The scan order taken apart at cell `i`: the cells before it, and those from `i + 1` on. -/
theorem range_eq_append_cons {i n : Nat} (hi : i < n) :
    List.range n = List.range i ++ i :: List.range' (i + 1) (n - (i + 1)) := by
  have hn : n = i + 1 + (n - (i + 1)) := by omega
  conv_lhs => rw [hn, List.range_eq_range', ← List.range'_append_1, ← List.range_eq_range']
  simp [List.range_succ]

/-! ## The whole command -/

/-- RDW is one move to the origin, the copy of `CUR` into `COM`, and the answer (R98). -/
theorem Machine.exec_rdw_moved (s : State) :
    exec .rdw s = .next (((s.moved (some ⟨0, 0⟩) (Expect.redraw s)).setCom
      (s.com.copyFrom s.cfg s.cur)).answer .ok 0#2) := by
  rw [exec_rdw, State.rdwScan_moved, State.commitBuffer, State.moved_cfg, State.moved_cur,
    State.moved_com]

/-- The levels RDW's events leave are those its cells leave, once the reset line was driven low. -/
theorem Machine.State.lines_moved_redraw (s : State) (h : Option Pos) :
    ∃ p, (s.moved h (Expect.redraw s)).lines = (Driven.run s.cfg (s.lines.set .rst false, p)
      (Expect.redrawCells s (List.range s.cfg.nbits))).1 := by
  rw [State.moved_lines, Expect.redraw, Driven.run_append,
    Driven.run_pulse s.cfg s.lines s.panel (by decide)]
  exact ⟨_, rfl⟩

/-- Settles O36: RDW is the move and the copy of `exec_rdw_moved`; its levels follow the cells of
the scan, and the polarity line the last changed one. -/
theorem rdwCompletes : Obligations.RdwCompletes := by
  intro s
  obtain ⟨p, hlines⟩ := State.lines_moved_redraw s (some ⟨0, 0⟩)
  refine ⟨_, exec_rdw_moved s, State.moved_head .., State.moved_trace .., fun k hk => ?_,
    fun k hk => ?_, State.moved_cur .., fun k => by simp, fun hrest => ?_, fun hsame => ?_,
    fun i hi hchanged hlast => ?_, by simp [State.keepsRest], by simp [State.answers]⟩
  · simp [Memory.read_copyFrom, hk]
  · simp [Memory.read_copyFrom, Nat.not_lt.2 hk]
  · rw [State.answer_lines, State.setCom_lines, hlines]
    exact Driven.atRest_run_redrawCells s _ (Lines.atRest_set_low hrest .rst) _
  · rw [State.answer_lines, State.setCom_lines, hlines]
    exact Driven.pol_run_redrawCells_unchanged s _ _ fun j hj => hsame j (List.mem_range.1 hj)
  · rw [State.answer_lines, State.setCom_lines, hlines, range_eq_append_cons hi]
    refine Driven.pol_run_redrawCells_lastChanged s _ _ _ hchanged fun j hj => ?_
    obtain ⟨hij, hjn⟩ := List.mem_range'_1.1 hj
    exact hlast j (by omega) (by omega)

end Sys2Proof
end

section
/-! PROOFS. No feedback (45_panel_environment.md R117): a step takes nothing from the line levels or
the panel. Whatever they are, it reaches the same next state and emits the same events, and the
events alone say what becomes of the lines and the panel; and what becomes of the lines does not
depend on the panel. -/

namespace Sys2Proof

open Machine

/-! ## Lines and panel put in place -/

/-- The state with the line levels and the panel as given. -/
def Machine.State.withDriven (s : State) (d : Lines × Panel) : State :=
  { s with lines := d.1, panel := d.2 }

/-- A move from given lines and panel: its events drive these two (R16, R111), and the rest is as
after the same move from any others. -/
theorem Machine.State.withDriven_moved (s : State) (d : Lines × Panel) (h : Option Pos)
    (es : List Event) :
    (s.withDriven d).moved h es = (s.moved h es).withDriven (Driven.run s.cfg d es) := by
  simp [State.withDriven, State.moved, State.emitAll_eq, State.setHead]

/-- The line levels after some events do not depend on the panel (R16). -/
theorem Machine.Driven.lines_run (c : Config) (d : Lines × Panel) (es : List Event) :
    (Driven.run c d es).1 = es.foldl Lines.after d.1 := by
  induction es generalizing d with
  | nil => rfl
  | cons e es ih => exact ih (Driven.after c d e)

/-! ## Moves that read neither -/

/-- From every line levels and every panel, `f` is the same move. -/
def MovesBlindly (f : State → State) : Prop :=
  ∀ s : State, ∃ h es, ∀ d, f (s.withDriven d) = (s.withDriven d).moved h es

namespace MovesBlindly
variable {f g : State → State}

/-- To do nothing is a move. -/
theorem stay : MovesBlindly fun s => s := fun s => ⟨s.head, [], fun _ => rfl⟩

theorem comp (hg : MovesBlindly g) (hf : MovesBlindly f) : MovesBlindly fun s => g (f s) := by
  intro s
  obtain ⟨h, es, hfs⟩ := hf s
  obtain ⟨h', es', hgs⟩ := hg (s.moved h es)
  refine ⟨h', es ++ es', fun d => ?_⟩
  calc g (f (s.withDriven d))
    _ = g ((s.moved h es).withDriven (Driven.run s.cfg d es)) := by rw [hfs, State.withDriven_moved]
    _ = ((s.withDriven d).moved h es).moved h' es' := by rw [hgs, ← State.withDriven_moved]
    _ = (s.withDriven d).moved h' (es ++ es') := State.moved_moved ..

/-- A choice by the head registers reads neither the lines nor the panel. -/
theorem ite_head (p : Option Pos → Prop) [DecidablePred p] (hf : MovesBlindly f)
    (hg : MovesBlindly g) : MovesBlindly fun s => if p s.head then f s else g s := by
  intro s
  by_cases hp : p s.head
  · obtain ⟨h, es, hfs⟩ := hf s
    exact ⟨h, es, fun d => (if_pos hp).trans (hfs d)⟩
  · obtain ⟨h, es, hgs⟩ := hg s
    exact ⟨h, es, fun d => (if_neg hp).trans (hgs d)⟩

/-- A move is blind when neither its head nor its events are read off the lines or the panel. -/
theorem of_moved {h : State → Option Pos} {es : State → List Event}
    (hf : ∀ s, f s = s.moved (h s) (es s)) (hh : ∀ s d, h (s.withDriven d) = h s)
    (hes : ∀ s d, es (s.withDriven d) = es s) : MovesBlindly f := by
  intro s
  refine ⟨h s, es s, fun d => ?_⟩
  rw [hf, hh, hes]

theorem rstOp : MovesBlindly State.rstOp :=
  of_moved State.rstOp_moved (fun _ _ => rfl) (fun _ _ => rfl)

theorem stcOp : MovesBlindly State.stcOp :=
  of_moved State.stcOp_moved (fun _ _ => rfl) (fun _ _ => rfl)

theorem strOp : MovesBlindly State.strOp :=
  of_moved State.strOp_moved (fun _ _ => rfl) (fun _ _ => rfl)

theorem commitOp (v : Bool) : MovesBlindly fun s => s.commitOp v :=
  of_moved (fun s => State.commitOp_moved s v) (fun _ _ => rfl) (fun _ _ => rfl)

theorem fclScan : MovesBlindly fun s => (s.rstOp.emit (.low .pol)).fclScan :=
  of_moved State.fclScan_moved (fun _ _ => rfl) (fun _ _ => rfl)

theorem stepColumnsTo (x n : Nat) : MovesBlindly (State.stepColumnsTo x n) := by
  induction n with
  | zero => exact stay
  | succ n ih => exact ite_head (fun h => h.map Pos.x = some x) stay (ih.comp stcOp)

theorem stepRowsTo (y n : Nat) : MovesBlindly (State.stepRowsTo y n) := by
  induction n with
  | zero => exact stay
  | succ n ih => exact ite_head (fun h => h.map Pos.y = some y) stay (ih.comp strOp)

theorem walkTo (x y : Nat) : MovesBlindly fun s => s.walkTo x y :=
  fun s => (stepRowsTo y s.cfg.height).comp (stepColumnsTo x s.cfg.width) s

end MovesBlindly

/-! ## Commands and steps that observe neither -/

/-- From every line levels and every panel, `f` answers the same next state, the lines and the panel
apart, and those are driven by the same events. -/
def ObservesNoOutput (f : State → Host.Outcome State Fault Refusal) : Prop :=
  ∀ s : State, ∃ (u : State) (es : List Event), ∀ d,
    f (s.withDriven d) = .next (u.withDriven (Driven.run s.cfg d es))

/-- A blind move followed by a response. -/
theorem MovesBlindly.answerOk {f : State → State} (hf : MovesBlindly f) :
    ObservesNoOutput fun s => .next (f s).answerOk := by
  intro s
  obtain ⟨h, es, hfs⟩ := hf s
  refine ⟨(s.moved h es).answerOk, es, fun d => ?_⟩
  have hf_moved : f (s.withDriven d) = (s.moved h es).withDriven (Driven.run s.cfg d es) :=
    (hfs d).trans (State.withDriven_moved s d h es)
  exact congrArg (fun t : State => Host.Outcome.next t.answerOk) hf_moved

/-- Every command reads its operands, the parameters, the head registers and the buffers only. -/
theorem exec_observesNoOutput (i : Instr) : ObservesNoOutput (exec i) := by
  intro s
  cases i with
  | rst => exact MovesBlindly.rstOp.answerOk s
  | stc => exact MovesBlindly.stcOp.answerOk s
  | str => exact MovesBlindly.strOp.answerOk s
  | cmt v => exact (MovesBlindly.commitOp v).answerOk s
  | fcl => exact MovesBlindly.fclScan.answerOk s
  | clr => exact ⟨(s.setCur (s.cur.clearAll s.cfg)).answerOk, [],
      fun d => exec_clr (s.withDriven d)⟩
  | spx x y v =>
    by_cases hxy : isDot s.cfg x y
    · exact ⟨(s.setCur (s.cur.bitWrite s.cfg x y v)).answerOk, [],
        fun d => exec_spx (s.withDriven d) v hxy⟩
    · exact ⟨s.raise .outOfRange, [], fun d => exec_spx_outOfRange (s.withDriven d) v hxy⟩
  | gpx x y =>
    by_cases hxy : isDot s.cfg x y
    · exact ⟨s.answer .ok (pixelData (s.previousBit x y) (s.currentBit x y)), [],
        fun d => exec_gpx (s.withDriven d) hxy⟩
    · exact ⟨s.raise .outOfRange, [], fun d => exec_gpx_outOfRange (s.withDriven d) hxy⟩
  | awr x y v =>
    by_cases hxy : isDot s.cfg x y
    · cases hv : s.headValid with
      | true =>
        obtain ⟨u, es, hwalk⟩ :=
          ((MovesBlindly.commitOp v).comp (MovesBlindly.walkTo x y)).answerOk s
        exact ⟨u, es, fun d => (exec_awr (s.withDriven d) v hxy hv).trans (hwalk d)⟩
      | false =>
        exact ⟨s.raise .headUndefined, [],
          fun d => exec_awr_headUndefined (s.withDriven d) v hxy hv⟩
    · exact ⟨s.raise .outOfRange, [], fun d => exec_awr_outOfRange (s.withDriven d) v hxy⟩
  | rdw =>
    refine ⟨((s.moved (some ⟨0, 0⟩) (Expect.redraw s)).setCom
      (s.com.copyFrom s.cfg s.cur)).answerOk, Expect.redraw s, fun d => ?_⟩
    rw [exec_rdw_moved, State.withDriven_moved]
    rfl

/-- A step reads the next command word and what its command reads. -/
theorem step_observesNoOutput : ObservesNoOutput step := by
  intro s
  cases hp : s.pending with
  | nil =>
    refine ⟨s, [], fun d => ?_⟩
    rw [step, State.takeCommand_nil (s.withDriven d) hp]
    rfl
  | cons w rest =>
    cases hw : decode w with
    | error e =>
      refine ⟨({ s with pending := rest }).raise .illegalCommand, [], fun d => ?_⟩
      simp only [step, State.takeCommand_cons (s.withDriven d) w hp, hw]
      rfl
    | ok i =>
      obtain ⟨u, es, hexec⟩ := exec_observesNoOutput i { s with pending := rest }
      refine ⟨u, es, fun d => ?_⟩
      simp only [step, State.takeCommand_cons (s.withDriven d) w hp, hw]
      exact hexec d

/-- Settles O58: two panels under the same line levels differ after a step in the panel only, for
the step observes neither and the events drive the lines alike. -/
theorem panelIsNeverObserved : Obligations.PanelIsNeverObserved := by
  intro s t p ht
  obtain ⟨u, es, hstep⟩ := step_observesNoOutput s
  have hs : t = u.withDriven (Driven.run s.cfg (s.lines, s.panel) es) :=
    Host.Outcome.next.inj (ht.symm.trans (hstep (s.lines, s.panel)))
  have hlines : (Driven.run s.cfg (s.lines, p) es).1 = t.lines := by
    rw [hs, State.withDriven, Driven.lines_run, Driven.lines_run]
  refine ⟨(Driven.run s.cfg (s.lines, p) es).2, (hstep (s.lines, p)).trans ?_⟩
  rw [State.withDriven, hlines, hs]
  rfl

end Sys2Proof
end

section
/-! PROOFS. The fault OutOfRange (60_exceptions.md R121): a coordinate beyond its bound names no dot
of the panel, and SPX, GPX and AWR each raise the fault for a target that is no dot. -/

namespace Sys2Proof

open Machine

/-- No dot is addressed exactly when a coordinate is at or beyond its bound (R121). -/
theorem not_isDot_iff (c : Config) (x y : Nat) : ¬isDot c x y ↔ c.width ≤ x ∨ c.height ≤ y := by
  rw [isDot, not_and_or, Nat.not_lt, Nat.not_lt]

/-- Settles O30: each of the three commands raises the fault, which only appends its response. -/
theorem outOfRangeFaults : Obligations.OutOfRangeFaults := by
  intro s x y v hout i hi
  have hdot : ¬isDot s.cfg x y := (not_isDot_iff s.cfg x y).2 hout
  have hraise : exec i s = .next (s.raise .outOfRange) := by
    simp only [List.mem_cons, List.not_mem_nil, or_false] at hi
    obtain rfl | rfl | rfl := hi
    · exact exec_spx_outOfRange s v hdot
    · exact exec_gpx_outOfRange s hdot
    · exact exec_awr_outOfRange s v hdot
  exact hraise

end Sys2Proof
end

section
/-! PROOFS. The command word (30_encoding.md): encode and decode are inverse to each other on
well-formed commands, the match and mask words select what the decoder accepts (R53), and the illegal
words are those of R54. Every proof goes by the five fields of a word. -/

namespace Sys2Proof

open Machine

/-! ## A word is its fields -/

/-- A number that fits its field is the field's number (R57). -/
theorem toNat_ofNat_of_fitsField {n : Nat} (h : fitsField n) : (BitVec.ofNat 12 n).toNat = n := by
  rw [BitVec.toNat_ofNat, Nat.mod_eq_of_lt (by omega)]

/-- A word with zero reserved bits is assembled from its other fields (R50). -/
theorem assemble_fields {w : Word} (hr : rsvField w = 0#3) :
    assemble (opField w) (vField w) (xField w) (yField w) = w := by
  conv_rhs => rw [word_eq_fields w, hr]
  rfl

/-- A word as the number its fields make (R50). -/
theorem word_toNat (w : Word) :
    w.toNat = (opField w).toNat * 2 ^ 28 + (rsvField w).toNat * 2 ^ 25 +
      (vField w).toNat * 2 ^ 24 + (xField w).toNat * 2 ^ 12 + (yField w).toNat := by
  obtain ⟨hop, hrsv, hv, hx, hy⟩ := word_field_numbers w
  have hvn : (vField w).toNat = w.toNat / 2 ^ 24 % 2 := by
    rw [hv]
    rcases Nat.mod_two_eq_zero_or_one (w.toNat / 2 ^ 24) with h | h <;> rw [h] <;> rfl
  rw [hop, hrsv, hvn, hx, hy]
  omega

/-- What the encoder puts into the fields, for every command (R50, R57). -/
theorem encode_fields (i : Instr) : Laws.EncodeFields.Statement i := by
  cases i with
  | rst => exact Laws.EncodeFields.rst
  | stc => exact Laws.EncodeFields.stc
  | str => exact Laws.EncodeFields.str
  | spx x y v => exact Laws.EncodeFields.spx x y v
  | clr => exact Laws.EncodeFields.clr
  | gpx x y => exact Laws.EncodeFields.gpx x y
  | cmt v => exact Laws.EncodeFields.cmt v
  | fcl => exact Laws.EncodeFields.fcl
  | awr x y v => exact Laws.EncodeFields.awr x y v
  | rdw => exact Laws.EncodeFields.rdw

/-! ## Decode after encode -/

/-- An assembled word with zero unused fields decodes to its row's command (R51 to R53). -/
theorem decode_assemble (o : Opcode) (v : Bool) (x y : BitVec 12)
    (hu : o.format.unusedZero (assemble o.code v x y) = true) :
    decode (assemble o.code v x y) = .ok (o.instr (assemble o.code v x y)) :=
  decode_of_fields (opField_assemble ..) (rsvField_assemble ..) hu

/-- Settles O2: the encoder assembles the fields of the row, and the operands read back from them are
the operands put in, since they fit. -/
theorem decodeOfEncode : Obligations.DecodeOfEncode := by
  intro i hi
  cases i with
  | rst => exact decode_assemble .rst false 0#12 0#12 rfl
  | stc => exact decode_assemble .stc false 0#12 0#12 rfl
  | str => exact decode_assemble .str false 0#12 0#12 rfl
  | clr => exact decode_assemble .clr false 0#12 0#12 rfl
  | fcl => exact decode_assemble .fcl false 0#12 0#12 rfl
  | rdw => exact decode_assemble .rdw false 0#12 0#12 rfl
  | spx x y v =>
    refine (decode_assemble .spx v _ _ rfl).trans ?_
    simp only [Opcode.instr, xField_assemble, yField_assemble, vField_assemble,
      toNat_ofNat_of_fitsField hi.1, toNat_ofNat_of_fitsField hi.2]
  | awr x y v =>
    refine (decode_assemble .awr v _ _ rfl).trans ?_
    simp only [Opcode.instr, xField_assemble, yField_assemble, vField_assemble,
      toNat_ofNat_of_fitsField hi.1, toNat_ofNat_of_fitsField hi.2]
  | gpx x y =>
    refine (decode_assemble .gpx false _ _ ?_).trans ?_
    · simp [Opcode.format, Format.unusedZero, vField_assemble]
    · simp only [Opcode.instr, xField_assemble, yField_assemble, toNat_ofNat_of_fitsField hi.1,
        toNat_ofNat_of_fitsField hi.2]
  | cmt v =>
    refine (decode_assemble .cmt v _ _ ?_).trans ?_
    · simp [Opcode.format, Format.unusedZero, xField_assemble, yField_assemble]
    · simp only [Opcode.instr, vField_assemble]

/-! ## Encode after decode -/

/-- A row's command, read off a word whose unused fields are zero, is encoded from the same fields
(R51). -/
theorem encode_instr {w : Word} {o : Opcode} (hu : o.format.unusedZero w = true) :
    encode (o.instr w) = assemble o.code (vField w) (xField w) (yField w) := by
  cases o with
  | rst | stc | str | clr | fcl | rdw =>
    have hzero : (vField w = false ∧ xField w = 0#12) ∧ yField w = 0#12 := by
      simpa [Opcode.format, Format.unusedZero] using hu
    simp only [Opcode.instr, encode, hzero]
  | cmt =>
    have hzero : xField w = 0#12 ∧ yField w = 0#12 := by
      simpa [Opcode.format, Format.unusedZero] using hu
    simp only [Opcode.instr, encode, hzero]
  | gpx =>
    have hzero : vField w = false := by simpa [Opcode.format, Format.unusedZero] using hu
    simp only [Opcode.instr, encode, hzero, BitVec.ofNat_toNat, BitVec.setWidth_eq]
  | spx | awr => simp only [Opcode.instr, encode, BitVec.ofNat_toNat, BitVec.setWidth_eq]

/-- Operands read from their fields fit them (R52, R57). -/
theorem instr_wf (o : Opcode) (w : Word) : (o.instr w).wf := by
  have hx : fitsField (xField w).toNat := Nat.le_of_lt_succ (xField w).isLt
  have hy : fitsField (yField w).toNat := Nat.le_of_lt_succ (yField w).isLt
  cases o with
  | rst | stc | str | clr | fcl | rdw | cmt => exact trivial
  | spx | gpx | awr => exact ⟨hx, hy⟩

/-- Settles O3: a legal word is assembled from its opcode and operand fields alone. -/
theorem encodeOfDecode : Obligations.EncodeOfDecode := by
  intro w i hi
  obtain ⟨o, hop, hrsv, hunused, rfl⟩ := decode_ok hi
  refine ⟨?_, instr_wf o w⟩
  rw [encode_instr hunused, ← hop, assemble_fields hrsv]

/-! ## Legal and illegal words -/

/-- Different rows have different opcodes (R53). -/
theorem Opcode.code_injective {o o' : Opcode} (h : o.code = o'.code) : o = o' :=
  Option.some.inj (((Opcode.ofCode_iff _ o).2 rfl).symm.trans ((Opcode.ofCode_iff _ o').2 h))

/-- Settles O4: a row selects a word exactly when the decoder accepts its fields for that row. -/
theorem everyWordSelectsOneRowOrIsIllegal : Obligations.EveryWordSelectsOneRowOrIsIllegal := by
  intro w
  cases hd : decode w with
  | ok i =>
    obtain ⟨o, hop, hrsv, hunused, rfl⟩ := decode_ok hd
    refine .inl ⟨o, rfl, (Opcode.selects_iff_fields w o).2 ⟨hop, hrsv, hunused⟩, fun o' ho' => ?_⟩
    obtain ⟨hop', -, -⟩ := (Opcode.selects_iff_fields w o').1 ho'
    exact Opcode.code_injective (hop'.symm.trans hop)
  | error e =>
    refine .inr ⟨⟨e, rfl⟩, fun o ho => ?_⟩
    obtain ⟨hop, hrsv, hunused⟩ := (Opcode.selects_iff_fields w o).1 ho
    rw [decode_of_fields hop hrsv hunused] at hd
    cases hd

/-- The clauses of R54, by fields. -/
theorem decode_error_iff (w : Word) :
    (∃ e, decode w = .error e) ↔ Opcode.ofCode (opField w) = none ∨ rsvField w ≠ 0#3 ∨
      ∃ o : Opcode, opField w = o.code ∧ o.format.unusedZero w = false := by
  constructor
  · rintro ⟨e, he⟩
    cases hop : Opcode.ofCode (opField w) with
    | none => exact .inl rfl
    | some o =>
      have ho := (Opcode.ofCode_iff _ o).1 hop
      by_cases hrsv : rsvField w = 0#3
      · refine .inr (.inr ⟨o, ho, ?_⟩)
        by_contra hunused
        rw [decode_of_fields ho hrsv (by simpa using hunused)] at he
        cases he
      · exact .inr (.inl hrsv)
  · intro h
    cases hd : decode w with
    | error e => exact ⟨e, rfl⟩
    | ok i =>
      obtain ⟨o, hop, hrsv, hunused, -⟩ := decode_ok hd
      rcases h with h | h | ⟨o', hop', hunused'⟩
      · rw [(Opcode.ofCode_iff _ o).2 hop] at h
        cases h
      · exact absurd hrsv h
      · rw [← Opcode.code_injective (hop.symm.trans hop'), hunused] at hunused'
        cases hunused'

/-- The reserved opcode numbers (R53, R54). -/
theorem Opcode.ofCode_eq_none_iff (op : BitVec 4) :
    Opcode.ofCode op = none ↔ op.toNat ∈ [0, 7, 12, 13, 14, 15] := by
  revert op
  decide

section numbers
variable (w : Word)

theorem opField_eq_code_iff (o : Opcode) : opField w = o.code ↔ w.toNat / 2 ^ 28 = o.code.toNat := by
  obtain ⟨hop, -⟩ := word_field_numbers w
  rw [← BitVec.toNat_inj, hop]

theorem rsvField_ne_zero_iff : rsvField w ≠ 0#3 ↔ w.toNat / 2 ^ 25 % 8 ≠ 0 := by
  obtain ⟨-, hrsv, -⟩ := word_field_numbers w
  rw [ne_eq, ← BitVec.toNat_inj, hrsv]
  rfl

/-- `V`, `X` and `Y` are bits 24 to 0 (R50, R51). -/
theorem Format.n_unusedZero_iff : Format.n.unusedZero w = false ↔ w.toNat % 2 ^ 25 ≠ 0 := by
  obtain ⟨-, -, hv, hx, hy⟩ := word_field_numbers w
  have hnum : Format.n.unusedZero w = true ↔ w.toNat % 2 ^ 25 = 0 := by
    simp only [Format.unusedZero, Bool.and_eq_true, beq_iff_eq, ← BitVec.toNat_inj, hx, hy, hv,
      Bool.not_eq_true', beq_eq_false_iff_ne, BitVec.toNat_ofNat]
    omega
  rw [← Bool.not_eq_true, hnum]

/-- `X` and `Y` are bits 23 to 0 (R50, R51). -/
theorem Format.v_unusedZero_iff : Format.v.unusedZero w = false ↔ w.toNat % 2 ^ 24 ≠ 0 := by
  obtain ⟨-, -, -, hx, hy⟩ := word_field_numbers w
  have hnum : Format.v.unusedZero w = true ↔ w.toNat % 2 ^ 24 = 0 := by
    simp only [Format.unusedZero, Bool.and_eq_true, beq_iff_eq, ← BitVec.toNat_inj, hx, hy,
      BitVec.toNat_ofNat]
    omega
  rw [← Bool.not_eq_true, hnum]

/-- `V` is bit 24 (R50, R51). -/
theorem Format.xy_unusedZero_iff : Format.xy.unusedZero w = false ↔ w.toNat / 2 ^ 24 % 2 ≠ 0 := by
  obtain ⟨-, -, hv, -⟩ := word_field_numbers w
  simp only [Format.unusedZero, hv, Bool.not_eq_false', beq_iff_eq]
  omega

/-- A non-zero unused field, by rows (R51, R54). -/
theorem unusedField_iff :
    (∃ o : Opcode, opField w = o.code ∧ o.format.unusedZero w = false) ↔
      (w.toNat / 2 ^ 28 ∈ [1, 2, 3, 5, 9, 11] ∧ w.toNat % 2 ^ 25 ≠ 0) ∨
      (w.toNat / 2 ^ 28 = 8 ∧ w.toNat % 2 ^ 24 ≠ 0) ∨
      (w.toNat / 2 ^ 28 = 6 ∧ w.toNat / 2 ^ 24 % 2 ≠ 0) := by
  simp only [opField_eq_code_iff]
  constructor
  · rintro ⟨o, hop, hunused⟩
    cases o with
    | rst | stc | str | clr | fcl | rdw =>
      exact .inl ⟨by rw [hop]; decide, (Format.n_unusedZero_iff w).1 hunused⟩
    | cmt => exact .inr (.inl ⟨hop, (Format.v_unusedZero_iff w).1 hunused⟩)
    | gpx => exact .inr (.inr ⟨hop, (Format.xy_unusedZero_iff w).1 hunused⟩)
    | spx | awr => exact nomatch (show true = false from hunused)
  · rintro (⟨hop, hunused⟩ | ⟨hop, hunused⟩ | ⟨hop, hunused⟩)
    · have hn := (Format.n_unusedZero_iff w).2 hunused
      simp only [List.mem_cons, List.not_mem_nil, or_false] at hop
      rcases hop with hop | hop | hop | hop | hop | hop
      · exact ⟨.rst, hop, hn⟩
      · exact ⟨.stc, hop, hn⟩
      · exact ⟨.str, hop, hn⟩
      · exact ⟨.clr, hop, hn⟩
      · exact ⟨.fcl, hop, hn⟩
      · exact ⟨.rdw, hop, hn⟩
    · exact ⟨.cmt, hop, (Format.v_unusedZero_iff w).2 hunused⟩
    · exact ⟨.gpx, hop, (Format.xy_unusedZero_iff w).2 hunused⟩

end numbers

/-- Settles O5: the three clauses of `decode_error_iff`, each read as numbers. -/
theorem illegalExactlyForTheListedReasons : Obligations.IllegalExactlyForTheListedReasons := by
  intro w
  obtain ⟨hop, -⟩ := word_field_numbers w
  rw [decode_error_iff, Opcode.ofCode_eq_none_iff, hop, rsvField_ne_zero_iff, unusedField_iff]

/-- Settles O6: the number a word's fields make, with the fields the encoder fills. -/
theorem assemblyFormula : Obligations.AssemblyFormula := by
  intro i hi
  obtain ⟨hop, hrsv, hv, hx, hy⟩ := encode_fields i hi
  rw [word_toNat, hop, hrsv, hv, hx, hy]
  simp

/-- Settles O1: the fourteen words, decoded one by one. -/
theorem workedEncodingsDecode : Obligations.WorkedEncodingsDecode := by
  exact ⟨rfl, rfl, rfl, rfl, rfl, rfl, rfl, rfl, rfl, rfl, rfl, rfl, rfl, rfl⟩

/-! ## Response words -/

/-- Appended bits are added below the others. -/
theorem toNat_append_eq_add {m n : Nat} (a : BitVec m) (b : BitVec n) :
    (a ++ b).toNat = a.toNat * 2 ^ n + b.toNat := by
  rw [BitVec.toNat_append, ← Nat.shiftLeft_add_eq_or_of_lt b.isLt, Nat.shiftLeft_eq]

/-- Settles O7: the response word is its two fields around 26 zero bits. -/
theorem responseWordLayout : Obligations.ResponseWordLayout := by
  refine ⟨fun r => ?_, rfl, rfl, rfl, rfl⟩
  rw [Response.word, toNat_append_eq_add, toNat_append_eq_add, BitVec.toNat_ofNat]
  omega

end Sys2Proof
end

section
/-! PROOFS. The address decoder and the bit accessor (20_memory.md R32, R34), and what follows for
the frame-buffer commands (41_frame_buffer.md R82, R83) and their range check (R59, R124). The one
fact behind the bit writes: every bit of every byte after one, read as an `if`. -/

namespace Sys2Proof

open Machine

/-! ## Indices -/

theorem Config.index_injective {c : Config} {x y x' y' : Nat} (h : isDot c x y) (h' : isDot c x' y')
    (he : c.index x y = c.index x' y') : (x, y) = (x', y') := by
  have hp : (⟨x, y⟩ : Pos) = ⟨x', y'⟩ := by rw [← Config.coord_index h, he, Config.coord_index h']
  injection hp with hx hy
  rw [hx, hy]

/-- A dot is that of cell `i` exactly when `i` is its index (R32). -/
theorem Config.eq_coord_iff {c : Config} {x y : Nat} (h : isDot c x y) (i : Nat) :
    (x, y) = ((c.coord i).x, (c.coord i).y) ↔ c.index x y = i := by
  constructor
  · intro he
    obtain ⟨rfl, rfl⟩ := Prod.mk.inj he
    exact Config.index_coord c i
  · rintro rfl
    rw [Config.coord_index h]

/-- Under the bounds of R3 there are at most `2 ^ 22` dots (R43). -/
theorem Config.nbits_le {c : Config} (hc : c.wf) : c.nbits ≤ 2 ^ 22 :=
  calc c.width * c.height
    _ ≤ 2048 * 2048 := Nat.mul_le_mul hc.1.2 hc.2.1.2
    _ = 2 ^ 22 := by norm_num

/-- Settles O8: `Coord` is the inverse of `Index` on both sides, and the bound is that of `nbits`. -/
theorem indexIsBijective : Obligations.IndexIsBijective := by
  refine fun c => ⟨fun x y hx hy => ?_, fun i hi => ?_⟩
  · have hlt : c.index x y < c.nbits := Config.index_lt ⟨hx, hy⟩
    exact ⟨hlt, Config.coord_index ⟨hx, hy⟩, fun hc => hlt.trans_le (Config.nbits_le hc)⟩
  · obtain ⟨hx, hy⟩ := Config.coord_isDot hi
    exact ⟨hx, hy, Config.index_coord c i⟩

/-! ## Bit writes -/

/-- Every bit of every byte after a bit write (R34). -/
theorem Machine.Memory.bit_bitWrite (c : Config) (m : Memory) (x y : Nat) (v : Bool) (k : Nat) {b : Nat}
    (hb : b < 8) :
    ((m.bitWrite c x y v).read k).getLsbD b =
      if k = byteOff (c.index x y) ∧ b = bitOff (c.index x y) then v else (m.read k).getLsbD b := by
  by_cases hk : k = byteOff (c.index x y)
  · subst hk
    simp only [Memory.getLsbD_read_bitWrite c m x y v hb, true_and]
  · simp only [Memory.read_bitWrite_other c m x y v hk, hk, false_and, if_false]

/-- The dot written reads the value, every other dot as before (R33, R34). -/
theorem Machine.Memory.bitRead_bitWrite {c : Config} {x y x' y' : Nat} (h : isDot c x y)
    (h' : isDot c x' y') (m : Memory) (v : Bool) :
    (m.bitWrite c x y v).bitRead c x' y' = if (x', y') = (x, y) then v else m.bitRead c x' y' := by
  have hsame : (byteOff (c.index x' y') = byteOff (c.index x y) ∧
      bitOff (c.index x' y') = bitOff (c.index x y)) ↔ (x', y') = (x, y) := by
    refine ⟨fun ⟨hbyte, hbit⟩ => Config.index_injective h' h (eq_of_byteOff_bitOff hbyte hbit), ?_⟩
    rintro ⟨rfl, rfl⟩
    exact ⟨rfl, rfl⟩
  rw [Memory.bitRead, Memory.bit_bitWrite c m x y v _ (bitOff_lt _)]
  simp only [hsame]
  rfl

/-- Settles O10: the dots by `bitRead_bitWrite`, the bits and bytes by the two laws of one write. -/
theorem bitWriteChangesOneBit : Obligations.BitWriteChangesOneBit := by
  intro c m x y v hx hy
  refine ⟨?_, fun x' y' hx' hy' hne => ?_, fun b hb hne => ?_, fun k hk => ?_⟩
  · rw [Memory.bitRead_bitWrite ⟨hx, hy⟩ ⟨hx, hy⟩, if_pos rfl]
  · rw [Memory.bitRead_bitWrite ⟨hx, hy⟩ ⟨hx', hy'⟩, if_neg hne]
  · rw [Memory.getLsbD_read_bitWrite c m x y v hb, if_neg hne]
  · exact Memory.read_bitWrite_other c m x y v hk

/-- Canonical memories with equal bits are equal. -/
theorem Machine.Memory.ext_bits {m n : Memory} (hm : m.wf) (hn : n.wf)
    (h : ∀ k b, b < 8 → (m.read k).getLsbD b = (n.read k).getLsbD b) : m = n :=
  Memory.ext_of_wf hm hn fun k => BitVec.eq_of_getLsbD_eq fun {b} hb => h k b hb

/-- Bit writes to different dots commute (R83). -/
theorem Machine.Memory.bitWrite_comm {c : Config} {m : Memory} (hm : m.wf) {x y x' y' : Nat}
    (h : isDot c x y) (h' : isDot c x' y') (hne : (x, y) ≠ (x', y')) (v v' : Bool) :
    (m.bitWrite c x y v).bitWrite c x' y' v' = (m.bitWrite c x' y' v').bitWrite c x y v := by
  have hwf : ∀ (a b a' b' : Nat) (u u' : Bool), ((m.bitWrite c a b u).bitWrite c a' b' u').wf :=
    fun a b a' b' u u' => Memory.bitWrite_wf c _ a' b' u' (Memory.bitWrite_wf c m a b u hm)
  refine Memory.ext_bits (hwf ..) (hwf ..) fun k b hb => ?_
  simp only [Memory.bit_bitWrite c _ _ _ _ k hb]
  split_ifs with hdot' hdot
  · obtain ⟨hbyte, hbit⟩ := hdot
    obtain ⟨hbyte', hbit'⟩ := hdot'
    exact absurd (Config.index_injective h h'
      (eq_of_byteOff_bitOff (hbyte.symm.trans hbyte') (hbit.symm.trans hbit'))) hne
  · rfl
  · rfl
  · rfl

/-- Of two bit writes to one dot the later stands (R83). -/
theorem Machine.Memory.bitWrite_bitWrite_same {m : Memory} (hm : m.wf) (c : Config) (x y : Nat)
    (v v' : Bool) : (m.bitWrite c x y v).bitWrite c x y v' = m.bitWrite c x y v' := by
  refine Memory.ext_bits (Memory.bitWrite_wf _ _ _ _ _ (Memory.bitWrite_wf _ _ _ _ _ hm))
    (Memory.bitWrite_wf _ _ _ _ _ hm) fun k b hb => ?_
  simp only [Memory.bit_bitWrite c _ x y _ k hb]
  split_ifs
  · rfl
  · rfl

/-! ## Runs of commands -/

/-- A run goes on from where its first command ends (R40). -/
theorem Machine.execAll_cons {i : Instr} {s t : State} (h : exec i s = .next t) (is : List Instr) :
    execAll (i :: is) s = execAll is t := by
  rw [execAll, h]

theorem Machine.execAll_append {is : List Instr} {s t : State} (h : execAll is s = .next t)
    (js : List Instr) : execAll (is ++ js) s = execAll js t := by
  induction is generalizing s with
  | nil => cases h; rfl
  | cons i is ih =>
    cases hi : exec i s with
    | next u =>
      rw [execAll_cons hi] at h
      rw [List.cons_append, execAll_cons hi]
      exact ih h
    | fault r => simp [execAll, hi] at h
    | refused r => simp [execAll, hi] at h

/-! ## SPX, GPX and AWR -/

/-- Two SPX in range: two bit writes to `CUR`, two answers. -/
theorem Machine.execAll_spx_spx (s : State) {x y x' y' : Nat} (h : isDot s.cfg x y)
    (h' : isDot s.cfg x' y') (v v' : Bool) :
    execAll [.spx x y v, .spx x' y' v'] s =
      .next (((s.setCur ((s.cur.bitWrite s.cfg x y v).bitWrite s.cfg x' y' v')).answer .ok 0#2).answer
        .ok 0#2) := by
  rw [execAll_cons (exec_spx s v h)]
  exact execAll_cons
    (exec_spx ((s.setCur (s.cur.bitWrite s.cfg x y v)).answer .ok 0#2) v' h') []

/-- Settles O29: SPX is a bit write, and bit writes commute or absorb. -/
theorem pixelWritesCommute : Obligations.PixelWritesCommute := by
  intro s x y x' y' v v' hcur h h'
  refine ⟨fun hne => ⟨_, execAll_spx_spx s h h' v v', ?_⟩, _, execAll_spx_spx s h h v v', ?_, _,
    exec_spx s v' h, ?_⟩
  · rw [execAll_spx_spx s h' h v' v, Memory.bitWrite_comm hcur h h' hne]
  · exact (Memory.bitRead_bitWrite h h _ v').trans (if_pos rfl)
  · exact Memory.bitWrite_bitWrite_same hcur s.cfg x y v v'

/-- The two data bits of GPX (R56). -/
theorem Machine.getLsbD_pixelData (previous current : Bool) :
    (pixelData previous current).getLsbD 0 = current ∧
      (pixelData previous current).getLsbD 1 = previous := by
  cases previous <;> cases current <;> decide

/-- Settles O28: in range GPX answers `pixelData` of the two bits. -/
theorem gpxCompletes : Obligations.GpxCompletes :=
  fun s _ _ hx hy => ⟨_, exec_gpx s ⟨hx, hy⟩, getLsbD_pixelData _ _⟩

/-- A 12-bit number with bit 11 set is beyond every admitted bound (R59). -/
theorem le_toNat_of_bit_eleven {f : BitVec 12} (hf : f.getLsbD 11 = true) : 2048 ≤ f.toNat :=
  Nat.ge_two_pow_of_testBit hf

/-- Settles O31: the field is out of range as either coordinate, so the commands fault as O30 says. -/
theorem negativeImagesAreOutOfRange : Obligations.NegativeImagesAreOutOfRange := by
  intro s f n v hcfg hf i hi
  obtain ⟨⟨-, hwidth⟩, ⟨-, hheight⟩, -⟩ := hcfg
  have hbig := le_toNat_of_bit_eleven hf
  have hx := outOfRangeFaults s f.toNat n v (.inl (hwidth.trans hbig))
  have hy := outOfRangeFaults s n f.toNat v (.inr (hheight.trans hbig))
  simp only [List.mem_cons, List.not_mem_nil, or_false] at hi
  rcases hi with rfl | rfl | rfl | rfl | rfl | rfl
  · exact hx _ (by simp)
  · exact hy _ (by simp)
  · exact hx _ (by simp)
  · exact hy _ (by simp)
  · exact hx _ (by simp)
  · exact hy _ (by simp)

/-- `HV = 0` is the absence of a position (R12; log 4). -/
theorem Machine.State.headValid_eq_false_iff (s : State) : s.headValid = false ↔ s.head = none :=
  Option.isSome_eq_false_iff.trans Option.isNone_iff_eq_none

/-- Settles O35: in range, AWR checks the head registers before its first event. -/
theorem awrHeadUndefinedFaults : Obligations.AwrHeadUndefinedFaults := by
  intro s x y v hhead hx hy
  exact exec_awr_headUndefined s v ⟨hx, hy⟩ (s.headValid_eq_false_iff.2 hhead)

end Sys2Proof
end

section
/-! PROOFS. One step (20_memory.md R40, 60_exceptions.md R123, R126, R130) and what any step leaves
(10_state.md R3, R12, R16 to R20; 30_encoding.md R56): every command ends in one response, and before
it can only move the head, emit events and write a buffer. -/

namespace Sys2Proof

open Machine

/-! ## The cases of a step -/

/-- A word that decodes runs its command (R40). -/
theorem Machine.step_of_decode {s : State} {w : Word} {rest : List Word} {i : Instr}
    (hp : s.pending = w :: rest) (hw : decode w = .ok i) :
    step s = exec i { s with pending := rest } := by
  simp only [step, State.takeCommand_cons s w hp, hw]

/-- A word that does not decode faults (R123). -/
theorem Machine.step_of_illegal {s : State} {w : Word} {rest : List Word} {e : Illegal}
    (hp : s.pending = w :: rest) (hw : decode w = .error e) :
    step s = .next (State.raise { s with pending := rest } .illegalCommand) := by
  simp only [step, State.takeCommand_cons s w hp, hw]

/-- Settles O11: the step hands the decoded command to `exec`. -/
theorem stepRunsDecodedCommand : Obligations.StepRunsDecodedCommand :=
  fun _ _ _ _ hp hw => step_of_decode hp hw

/-- Settles O12: the step raises `IllegalCommand` on the state without the word. -/
theorem illegalCommandFaults : Obligations.IllegalCommandFaults :=
  fun _ _ _ _ hp hw => step_of_illegal hp hw

/-- Settles O13: with an empty port there is nothing to take. -/
theorem idleStepHoldsState : Obligations.IdleStepHoldsState := by
  intro s hp
  rw [step, State.takeCommand_nil s hp]

/-- What answers the same next state whatever the lines and the panel answers a next state. -/
theorem ObservesNoOutput.completes {f : State → Host.Outcome State Fault Refusal}
    (hf : ObservesNoOutput f) (s : State) : ∃ t, f s = .next t := by
  obtain ⟨u, es, hfs⟩ := hf s
  exact ⟨_, hfs (s.lines, s.panel)⟩

/-- Settles O14: every command and every step reads only what it always finds. -/
theorem everyStepCompletes : Obligations.EveryStepCompletes :=
  ⟨step_observesNoOutput.completes, fun i => (exec_observesNoOutput i).completes⟩

/-- Settles O59: the step from other levels ends in the same state but for what its events make of
those levels. -/
theorem linesAreNeverRead : Obligations.LinesAreNeverRead := by
  intro s t ls ht
  obtain ⟨u, es, hstep⟩ := step_observesNoOutput s
  have hs : t = u.withDriven (Driven.run s.cfg (s.lines, s.panel) es) :=
    Host.Outcome.next.inj (ht.symm.trans (hstep (s.lines, s.panel)))
  refine ⟨(Driven.run s.cfg (ls, s.panel) es).1, (Driven.run s.cfg (ls, s.panel) es).2,
    (hstep (ls, s.panel)).trans ?_⟩
  rw [hs]
  rfl

/-! ## Responses -/

/-- Settles O15: an illegal word is answered by its fault, a command as `exec_answers` says. -/
theorem oneResponsePerCommand : Obligations.OneResponsePerCommand := by
  intro s t w rest hp ht
  rcases step_cases ht with ⟨hnil, -⟩ | ⟨w', rest', hp', hword⟩
  · rw [hp] at hnil
    cases hnil
  · obtain ⟨rfl, rfl⟩ := List.cons.inj (hp'.symm.trans hp)
    rcases hword with ⟨e, -, rfl⟩ | ⟨i, hi, hexec⟩
    · exact ⟨⟨.illegalCommand, 0#2⟩, rfl, rfl, fun _ => rfl, fun _ => rfl⟩
    · obtain ⟨u, st, d, rfl, hresponses, hpending, hfault, hdata⟩ := exec_answers hexec
      refine ⟨⟨st, d⟩, ?_, hpending, fun hst => (hfault hst).2, fun hgpx => hdata fun x y hxy => ?_⟩
      · rw [State.answer_responses, hresponses]
      · exact hgpx x y (hxy ▸ hi)

/-- Settles O16: the one response is the last one, and a fault came with nothing else. -/
theorem faultsChangeNothing : Obligations.FaultsChangeNothing := by
  intro s t i r ht hr hst
  obtain ⟨u, st, d, rfl, hresponses, -, hfault, -⟩ := exec_answers ht
  rw [State.answer_responses, hresponses] at hr
  obtain rfl : ⟨st, d⟩ = r := by simpa using hr
  obtain ⟨rfl, hd⟩ := hfault hst
  exact ⟨hd, rfl⟩

/-! ## What a step leaves -/

/-- A command keeps the parameters, and drives the lines and the panel by the events it appends. -/
theorem Machine.exec_driven {i : Instr} {s t : State} (h : exec i s = .next t) :
    t.cfg = s.cfg ∧ ∃ es, t.trace = s.trace ++ es ∧
      (t.lines, t.panel) = Driven.run s.cfg (s.lines, s.panel) es := by
  obtain ⟨u, m, n, st, d, hu, rfl, -, -⟩ := exec_cases h
  obtain ⟨p, es, rfl⟩ := hu.moved
  exact ⟨State.moved_cfg .., es, State.moved_trace .., by simp⟩

/-- A step does the same. -/
theorem Machine.step_driven {s t : State} (h : step s = .next t) :
    t.cfg = s.cfg ∧ ∃ es, t.trace = s.trace ++ es ∧
      (t.lines, t.panel) = Driven.run s.cfg (s.lines, s.panel) es := by
  rcases step_cases h with ⟨-, rfl⟩ | ⟨w, rest, -, ⟨e, -, rfl⟩ | ⟨i, -, hexec⟩⟩
  · exact ⟨rfl, [], (List.append_nil _).symm, rfl⟩
  · exact ⟨rfl, [], (List.append_nil _).symm, rfl⟩
  · exact exec_driven (s := { s with pending := rest }) hexec

/-- Settles O43: the events are those of the command's move. -/
theorem eventsDriveLinesAndPanel : Obligations.EventsDriveLinesAndPanel :=
  fun _ _ h => (step_driven h).2

/-- Settles O57: no move and no buffer write touches the parameters. -/
theorem parametersNeverChange : Obligations.ParametersNeverChange :=
  fun _ _ h => (step_driven h).1

/-! ## Who writes the buffers -/

/-- A command that writes no buffer is a move and an answer. -/
theorem Machine.exec_moved_answer {i : Instr} {s t : State} (h : exec i s = .next t)
    (hspx : ∀ x y v, i ≠ .spx x y v) (hclr : i ≠ .clr) (hrdw : i ≠ .rdw) :
    ∃ p es st d, t = (s.moved p es).answer st d := by
  have done : ∀ {u : State} {st : Status} {d : BitVec 2}, Elementary s u →
      .next (u.answer st d) = (.next t : Host.Outcome State Fault Refusal) →
      ∃ p es st d, t = (s.moved p es).answer st d := by
    intro u st d hu ht
    obtain ⟨p, es, rfl⟩ := hu.moved
    exact ⟨p, es, st, d, (Host.Outcome.next.inj ht).symm⟩
  cases i with
  | spx x y v => exact absurd rfl (hspx x y v)
  | clr => exact absurd rfl hclr
  | rdw => exact absurd rfl hrdw
  | rst => exact done (.rst (.refl s)) h
  | stc => exact done (.stc (.refl s)) h
  | str => exact done (.str (.refl s)) h
  | cmt v => exact done (.commit v (.refl s)) h
  | fcl => exact done (((Elementary.refl s).rst.polLow).trans (Elementary.fold .fclCell _ _)) h
  | gpx x y =>
    by_cases hd : isDot s.cfg x y
    · exact done (.refl s) ((exec_gpx s hd).symm.trans h)
    · exact done (.refl s) ((exec_gpx_outOfRange s hd).symm.trans h)
  | awr x y v =>
    by_cases hd : isDot s.cfg x y
    · cases hv : s.headValid with
      | true =>
        exact done (.commit v ((Elementary.stepColumnsTo x _ s).trans (.stepRowsTo y _ _)))
          ((exec_awr s v hd hv).symm.trans h)
      | false => exact done (.refl s) ((exec_awr_headUndefined s v hd hv).symm.trans h)
    · exact done (.refl s) ((exec_awr_outOfRange s v hd).symm.trans h)

/-- SPX and CLR replace `CUR` at most. -/
theorem Machine.exec_setCur_answer {i : Instr} {s t : State} (h : exec i s = .next t)
    (hi : i = .clr ∨ ∃ x y v, i = .spx x y v) : ∃ m st d, t = (s.setCur m).answer st d := by
  rcases hi with rfl | ⟨x, y, v, rfl⟩
  · exact ⟨_, _, _, (Host.Outcome.next.inj h).symm⟩
  · by_cases hd : isDot s.cfg x y
    · exact ⟨_, _, _, Host.Outcome.next.inj (h.symm.trans (exec_spx s v hd))⟩
    · exact ⟨s.cur, _, _, Host.Outcome.next.inj (h.symm.trans (exec_spx_outOfRange s v hd))⟩

/-- Settles O55: only SPX and CLR set `CUR`, only RDW sets `COM`, all others are moves. -/
theorem whoWritesTheBuffers : Obligations.WhoWritesTheBuffers := by
  intro s t i h
  by_cases hcur : i = .clr ∨ ∃ x y v, i = .spx x y v
  · obtain ⟨m, st, d, rfl⟩ := exec_setCur_answer h hcur
    refine ⟨fun _ => rfl, fun hclr hspx => ?_⟩
    rcases hcur with hi | ⟨x, y, v, hi⟩
    · exact absurd hi hclr
    · exact absurd hi (hspx x y v)
  · by_cases hrdw : i = .rdw
    · subst hrdw
      have ht := Host.Outcome.next.inj (h.symm.trans (exec_rdw_moved s))
      refine ⟨fun hne => absurd rfl hne, fun _ _ => ?_⟩
      rw [ht]
      exact State.moved_cur ..
    · obtain ⟨p, es, st, d, rfl⟩ := exec_moved_answer h
        (fun x y v hi => hcur (.inr ⟨x, y, v, hi⟩)) (fun hi => hcur (.inl hi)) hrdw
      exact ⟨fun _ => State.moved_com .., fun _ _ => State.moved_cur ..⟩

/-! ## Who defines the head -/

/-- No elementary operation clears `HV` (R12). -/
theorem Machine.Elementary.headValid {s t : State} (h : Elementary s t) (hs : s.headValid = true) :
    t.headValid = true := by
  induction h with
  | refl => exact hs
  | rst _ ih => simp [State.headValid, State.rstOp_moved]
  | stc _ ih =>
    rw [State.headValid, State.stcOp_moved, State.moved_head, Option.isSome_map]
    exact ih
  | str _ ih =>
    rw [State.headValid, State.strOp_moved, State.moved_head, Option.isSome_map]
    exact ih
  | commit v _ ih =>
    rw [State.headValid, State.commitOp_moved, State.moved_head]
    exact ih
  | polLow _ ih => exact ih

/-- With `HV = 0`, a command other than RST, FCL and RDW leaves it so (R12, R13). -/
theorem Machine.exec_head_none {i : Instr} {s t : State} (h : exec i s = .next t)
    (hs : s.head = none) (hi : i ∉ [Instr.rst, .fcl, .rdw]) : t.head = none := by
  cases i with
  | rst | fcl | rdw => exact absurd hi (by simp)
  | stc =>
    rw [exec_stc, State.stcOp_moved] at h
    cases h
    simp [hs]
  | str =>
    rw [exec_str, State.strOp_moved] at h
    cases h
    simp [hs]
  | cmt v =>
    rw [exec_cmt, State.commitOp_moved] at h
    cases h
    simp [hs]
  | clr => cases h; exact hs
  | spx x y v =>
    obtain ⟨m, st, d, rfl⟩ := exec_setCur_answer h (.inr ⟨x, y, v, rfl⟩)
    exact hs
  | gpx x y =>
    by_cases hd : isDot s.cfg x y
    · rw [exec_gpx s hd] at h; cases h; exact hs
    · rw [exec_gpx_outOfRange s hd] at h; cases h; exact hs
  | awr x y v =>
    have hv := s.headValid_eq_false_iff.2 hs
    by_cases hd : isDot s.cfg x y
    · rw [exec_awr_headUndefined s v hd hv] at h; cases h; exact hs
    · rw [exec_awr_outOfRange s v hd] at h; cases h; exact hs

/-- Settles O56: elementary operations keep a defined head, and only three commands define one. -/
theorem whoDefinesTheHead : Obligations.WhoDefinesTheHead := by
  intro s t i h
  refine ⟨fun hs => ?_, fun hs ht => ?_⟩
  · obtain ⟨u, m, n, st, d, hu, rfl, -, -⟩ := exec_cases h
    exact hu.headValid hs
  · by_contra hi
    have hnone := exec_head_none h (s.headValid_eq_false_iff.1 hs) hi
    rw [t.headValid_eq_false_iff.2 hnone] at ht
    cases ht

end Sys2Proof
end

section
/-! PROOFS. The invariants of the machine: what every step keeps (10_state.md, 40_scan_head.md R75,
45_panel_environment.md R111) and the agreement of the two heads (R115). A property is kept by every
step when the elementary operations, the three buffer writes and the answer keep it; that is said
once (`Kept`), and each invariant is then shown part by part. -/

namespace Sys2Proof

open Machine

/-! ## What every part of a step keeps, every step keeps -/

/-- Every part of a step keeps `P`: the elementary operations (R70 to R72, R91, R96), the buffer
writes (R80, R81, R98), the answer (R56) and the taking of a word (R40). -/
structure Kept (P : State → Prop) : Prop where
  rst : ∀ {s}, P s → P s.rstOp
  stc : ∀ {s}, P s → P s.stcOp
  str : ∀ {s}, P s → P s.strOp
  commit : ∀ {s} (v : Bool), P s → P (s.commitOp v)
  polLow : ∀ {s}, P s → P (s.emit (.low .pol))
  clearCur : ∀ {s}, P s → P (s.setCur (s.cur.clearAll s.cfg))
  writeCur : ∀ {s} {x y : Nat} (v : Bool), isDot s.cfg x y → P s →
    P (s.setCur (s.cur.bitWrite s.cfg x y v))
  copyCom : ∀ {s}, P s → P (s.setCom (s.com.copyFrom s.cfg s.cur))
  answer : ∀ {s} (st : Status) (d : BitVec 2), P s → P (s.answer st d)
  take : ∀ {s} (ws : List Word), P s → P { s with pending := ws }

namespace Kept
variable {P : State → Prop} (hP : Kept P) {s t : State}
include hP

theorem elementary (h : Elementary s t) (hs : P s) : P t := by
  induction h with
  | refl => exact hs
  | rst _ ih => exact hP.rst ih
  | stc _ ih => exact hP.stc ih
  | str _ ih => exact hP.str ih
  | commit v _ ih => exact hP.commit v ih
  | polLow _ ih => exact hP.polLow ih

theorem exec {i : Instr} (h : exec i s = .next t) (hs : P s) : P t := by
  obtain ⟨u, m, n, st, d, hu, rfl, hm, hn⟩ := exec_cases h
  have hPu := hP.elementary hu hs
  obtain ⟨p, es, hmoved⟩ := hu.moved
  have hcfg : u.cfg = s.cfg := hmoved ▸ State.moved_cfg ..
  have hcur : u.cur = s.cur := hmoved ▸ State.moved_cur ..
  have hcom : u.com = s.com := hmoved ▸ State.moved_com ..
  rw [← hcfg, ← hcur] at hm
  rw [← hcfg, ← hcur, ← hcom] at hn
  have hPn : P (u.setCom n) := by
    rcases hn with rfl | rfl
    · exact hPu
    · exact hP.copyCom hPu
  have hPm : P ((u.setCom n).setCur m) := by
    rcases hm with rfl | rfl | ⟨x, y, v, hd, rfl⟩
    · exact hPn
    · exact hP.clearCur hPn
    · exact hP.writeCur v hd hPn
  exact hP.answer st d hPm

theorem step (h : step s = .next t) (hs : P s) : P t := by
  rcases step_cases h with ⟨-, rfl⟩ | ⟨w, rest, -, ⟨e, -, rfl⟩ | ⟨i, -, hexec⟩⟩
  · exact hs
  · exact hP.answer _ _ (hP.take rest hs)
  · exact hP.exec hexec (hP.take rest hs)

end Kept

/-! ## Head agreement -/

/-- A pulse moves the physical head as its line says (R111, R112). -/
theorem Machine.State.panel_moved_pulse (s : State) (h : Option Pos) {l : Line} (hl : l ≠ .pol)
    (n : Nat) : (s.moved h (Expect.pulse l n)).panel =
      s.panel.closed.completePulse s.cfg s.lines.pol l n := by
  rw [State.moved_panel, Driven.run_pulse s.cfg s.lines s.panel hl]

/-- The panel after a commit (R114). -/
theorem Machine.State.panel_moved_commit (s : State) (h : Option Pos) (v : Bool) :
    (s.moved h (Expect.commit s.cfg v)).panel = s.panel.closed.commitPulse s.cfg v s.cfg.tCommit := by
  rw [State.moved_panel, Driven.run_commit]

/-- The panel after a polarity event (R114). -/
theorem Machine.State.panel_moved_polarity (s : State) (h : Option Pos) (v : Bool) :
    (s.moved h [if v then .high .pol else .low .pol]).panel =
      if v || s.panel.openPulse.isSome then s.panel.closed else s.panel := by
  rw [State.moved_panel, Driven.run_polarity]

/-- The reset pulse brings the heads together, wherever they were (R115). -/
theorem Machine.State.rstOp_headsAgree (s : State) : s.rstOp.headsAgree := by
  rw [State.headsAgree, State.rstOp_moved, State.panel_moved_pulse s _ (by decide), State.moved_head]
  rfl

theorem headsAgree_kept : Kept State.headsAgree where
  rst _ := State.rstOp_headsAgree _
  stc {s} hs := by
    rw [State.headsAgree, State.stcOp_moved, State.panel_moved_pulse s _ (by decide),
      State.moved_head, ← hs]
    rfl
  str {s} hs := by
    rw [State.headsAgree, State.strOp_moved, State.panel_moved_pulse s _ (by decide),
      State.moved_head, ← hs]
    rfl
  commit {s} v hs := by
    rw [State.headsAgree, State.commitOp_moved, State.panel_moved_commit, State.moved_head]
    exact hs
  polLow {s} hs := by
    have hpanel := State.panel_moved_polarity s s.head false
    rw [State.headsAgree, State.emit_head]
    refine (congrArg Panel.head hpanel).trans ?_
    split_ifs
    · exact hs
    · exact hs
  clearCur hs := hs
  writeCur _ _ hs := hs
  copyCom hs := hs
  answer _ _ hs := hs
  take _ hs := hs

/-- Settles O45: a step pulse moves both heads alike, the reset pulse brings both to the origin, and
nothing else moves either. -/
theorem stepKeepsHeadAgreement : Obligations.StepKeepsHeadAgreement :=
  fun _ _ hs h => headsAgree_kept.step h hs

/-! ## The panel's part of the invariant -/

/-- The panel's clauses of the invariant: its head and its dots on the panel, no pulse in progress. -/
structure Machine.Panel.Fits (c : Config) (p : Panel) : Prop where
  headIn : Machine.headIn c p.head
  dotsFit : p.dotsFit c
  noPulse : p.openPulse = none

theorem Machine.State.Inv.panelFits {s : State} (hs : s.Inv) : s.panel.Fits s.cfg :=
  ⟨hs.panelHeadIn, hs.dotsFit, hs.noPulse⟩

theorem origin_isDot {c : Config} (hc : c.wf) : isDot c 0 0 := ⟨hc.1.1, hc.2.1.1⟩

theorem nextColumn_headIn {c : Config} (hc : c.wf) (h : Option Pos) :
    headIn c (h.map (Pos.nextColumn c)) := by
  cases h with
  | none => exact trivial
  | some h => exact ⟨Nat.mod_lt _ hc.1.1, hc.2.1.1⟩

theorem nextRow_headIn {c : Config} (hc : c.wf) {h : Option Pos} (hh : headIn c h) :
    headIn c (h.map (Pos.nextRow c)) := by
  cases h with
  | none => exact trivial
  | some h => exact ⟨hh.1, Nat.mod_lt _ hc.2.1.1⟩

/-- The dot a commit addresses is one of the panel's, its head known or not (R114). -/
theorem Machine.Panel.addressed_isDot {c : Config} (hc : c.wf) {p : Panel} (hp : headIn c p.head) :
    isDot c (p.addressed c).x (p.addressed c).y := by
  cases hh : p.head with
  | none =>
    have hpos : 0 < c.nbits := Nat.mul_pos hc.1.1 hc.2.1.1
    have hlt : Config.blindDot p.blindSteps % c.nbits < c.nbits := Nat.mod_lt _ hpos
    simpa only [Panel.addressed, hh] using Config.coord_isDot hlt
  | some h =>
    rw [Panel.addressed_of_head hh]
    simpa only [hh] using hp

namespace Machine.Panel.Fits
variable {c : Config} {p : Panel}

theorem closed (hp : p.Fits c) : p.closed.Fits c := ⟨hp.headIn, hp.dotsFit, rfl⟩

theorem setDot (hp : p.Fits c) {x y : Nat} (hd : isDot c x y) (b : Bool) : (p.setDot x y b).Fits c := by
  obtain ⟨hhead, ⟨hwf, hdots⟩, hpulse⟩ := hp
  refine ⟨hhead, ⟨Panel.setDot_wf p x y b hwf, fun e he => ?_⟩, hpulse⟩
  rcases Keyed.mem_put dotLt he with rfl | he
  · exact hd
  · exact hdots e he

/-- The reaction to a pulse keeps the panel's clauses (R112 to R114). -/
theorem completePulse (hp : p.Fits c) (hc : c.wf) (pol : Bool) (l : Line) (n : Nat) :
    (p.completePulse c pol l n).Fits c := by
  cases l with
  | rst => exact ⟨origin_isDot hc, hp.dotsFit, hp.noPulse⟩
  | col => exact ⟨nextColumn_headIn hc p.head, hp.dotsFit, hp.noPulse⟩
  | row => exact ⟨nextRow_headIn hc hp.headIn, hp.dotsFit, hp.noPulse⟩
  | cmt =>
    have hset := hp.setDot (Panel.addressed_isDot hc hp.headIn) (p.committed c pol n (p.addressed c))
    exact ⟨hset.headIn, hset.dotsFit, hset.noPulse⟩
  | pol => exact hp

end Machine.Panel.Fits

/-! ## The shape of the trace -/

theorem wellPulsed_append {es fs : List Event} (hes : wellPulsed es) (hfs : wellPulsed fs) :
    wellPulsed (es ++ fs) := by
  rw [wellPulsed, List.foldlM_append, hes]
  exact hfs

theorem wellPulsed_pulse {l : Line} (hl : l ≠ .pol) (n : Nat) : wellPulsed (Expect.pulse l n) := by
  unfold Expect.pulse
  split_ifs with hn
  · cases l with
    | pol => exact absurd rfl hl
    | col | row | rst | cmt => rfl
  · have hpos : 0 < n := Nat.pos_of_ne_zero hn
    cases l with
    | pol => exact absurd rfl hl
    | col | row | rst | cmt => simp [wellPulsed, PulseShape.after, hpos]

theorem wellPulsed_polarity (v : Bool) : wellPulsed [if v then .high .pol else .low .pol] := by
  cases v <;> rfl

/-! ## The buffers' part of the invariant -/

section writeLoop
variable {c : Config} {m : Memory}

/-- A loop of writes below `n` lists no offset but those it had and those below `n`. -/
theorem Machine.Memory.mem_writeLoop (f : Nat → Byte) (n : Nat) {e : Host.Cell}
    (he : e ∈ (List.range n).foldl (fun m k => m.write k (f k)) m) : e.1 < n ∨ e ∈ m := by
  induction n with
  | zero => exact .inr he
  | succ n ih =>
    rw [List.range_succ, List.foldl_append] at he
    rcases Memory.mem_write he with rfl | he
    · exact .inl (Nat.lt_succ_self n)
    · exact (ih he).imp_left Nat.lt_succ_of_lt

/-- The padding bits lie in the last byte of the buffer (R5, R22). -/
theorem Config.padding_byteOff_lt {j : Nat} (hj : j < c.npad) : byteOff (c.nbits + j) < c.nbytes := by
  unfold Config.npad at hj
  unfold byteOff
  omega

/-- Filling a buffer with bytes whose padding bits are 0 keeps its clauses. -/
theorem Machine.Memory.fits_writeLoop (f : Nat → Byte) (hm : m.fits c)
    (hf : ∀ j < c.npad, (f (byteOff (c.nbits + j))).getLsbD (bitOff (c.nbits + j)) = false) :
    Memory.fits c ((List.range c.nbytes).foldl (fun m k => m.write k (f k)) m) := by
  obtain ⟨hwf, hbytes, -⟩ := hm
  refine ⟨Memory.writeLoop_wf f _ m hwf, fun e he => ?_, fun j hj => ?_⟩
  · exact (Memory.mem_writeLoop f _ he).elim id (hbytes e)
  · rw [Memory.read_writeLoop, if_pos (Config.padding_byteOff_lt hj)]
    exact hf j hj

theorem Machine.Memory.fits_clearAll (hm : m.fits c) : (m.clearAll c).fits c :=
  Memory.fits_writeLoop (fun _ => 0x00#8) hm fun _ _ => BitVec.getLsbD_zero

theorem Machine.Memory.fits_copyFrom {src : Memory} (hm : m.fits c) (hsrc : src.fits c) :
    (m.copyFrom c src).fits c := by
  obtain ⟨-, -, hpad⟩ := hsrc
  exact Memory.fits_writeLoop src.read hm hpad

/-- A bit write to a dot touches no padding bit (R36). -/
theorem Machine.Memory.fits_bitWrite (hm : m.fits c) {x y : Nat} (hd : isDot c x y) (v : Bool) :
    (m.bitWrite c x y v).fits c := by
  obtain ⟨hwf, hbytes, hpad⟩ := hm
  refine ⟨Memory.bitWrite_wf c m x y v hwf, fun e he => ?_, fun j hj => ?_⟩
  · rcases Memory.mem_write he with rfl | he
    · exact Config.dot_byteOff_lt hd
    · exact hbytes e he
  · have hne : ¬(byteOff (c.nbits + j) = byteOff (c.index x y) ∧
        bitOff (c.nbits + j) = bitOff (c.index x y)) := fun ⟨hbyte, hbit⟩ => by
      have heq := eq_of_byteOff_bitOff hbyte hbit
      have hlt := Config.index_lt hd
      omega
    rw [Memory.bit_bitWrite c m x y v _ (bitOff_lt _), if_neg hne]
    exact hpad j hj

end writeLoop

/-! ## Moves keep the invariant -/

namespace Machine.State.Inv
variable {s : State} (hs : s.Inv)
include hs

/-- A move to a head on the panel by whole pulses keeps the invariant, if it leaves the lines at rest
and the panel well formed. -/
theorem moved {h : Option Pos} (hh : Machine.headIn s.cfg h) {es : List Event} (hes : wellPulsed es)
    (hrest : (s.moved h es).lines.atRest) (hpanel : (s.moved h es).panel.Fits s.cfg) :
    (s.moved h es).Inv where
  cfgWf := by simpa using hs.cfgWf
  headIn := by simpa using hh
  panelHeadIn := by simpa only [State.moved_cfg] using hpanel.headIn
  curFits := by simpa only [State.moved_cfg, State.moved_cur] using hs.curFits
  comFits := by simpa only [State.moved_cfg, State.moved_com] using hs.comFits
  dotsFit := by simpa only [State.moved_cfg] using hpanel.dotsFit
  noPulse := hpanel.noPulse
  atRest := hrest
  wholePulses := by simpa using wellPulsed_append hs.wholePulses hes
  levels := by
    rw [State.moved_lines, State.moved_trace, Driven.lines_run, List.foldl_append, ← hs.levels]

theorem pulse {h : Option Pos} (hh : Machine.headIn s.cfg h) {l : Line} (hl : l ≠ .pol) (n : Nat) :
    (s.moved h (Expect.pulse l n)).Inv := by
  refine hs.moved hh (wellPulsed_pulse hl n) ?_ ?_
  · rw [State.lines_moved_pulse s h hl]
    exact Lines.atRest_set_low hs.atRest l
  · rw [State.panel_moved_pulse s h hl]
    exact hs.panelFits.closed.completePulse hs.cfgWf _ l n

theorem polarity (v : Bool) : (s.moved s.head [if v then .high .pol else .low .pol]).Inv := by
  refine hs.moved hs.headIn (wellPulsed_polarity v) ?_ ?_
  · rw [State.moved_lines, Driven.run_polarity]
    exact hs.atRest
  · rw [State.panel_moved_polarity]
    split_ifs
    · exact hs.panelFits.closed
    · exact hs.panelFits

theorem rstOp : s.rstOp.Inv := by
  rw [State.rstOp_moved]
  exact hs.pulse (origin_isDot hs.cfgWf) (by decide) _

theorem stcOp : s.stcOp.Inv := by
  rw [State.stcOp_moved]
  exact hs.pulse (nextColumn_headIn hs.cfgWf s.head) (by decide) _

theorem strOp : s.strOp.Inv := by
  rw [State.strOp_moved]
  exact hs.pulse (nextRow_headIn hs.cfgWf hs.headIn) (by decide) _

/-- A commit is a polarity event and a pulse (R91). -/
theorem commitOp (v : Bool) : (s.commitOp v).Inv := by
  have hpulse := (hs.polarity v).pulse (h := s.head) (by simpa using hs.headIn)
    (show Line.cmt ≠ .pol by decide) s.cfg.tCommit
  rw [State.moved_moved] at hpulse
  rw [State.commitOp_moved]
  exact hpulse

end Machine.State.Inv

theorem inv_kept : Kept State.Inv where
  rst hs := hs.rstOp
  stc hs := hs.stcOp
  str hs := hs.strOp
  commit v hs := hs.commitOp v
  polLow hs := hs.polarity false
  clearCur hs := { hs with curFits := Memory.fits_clearAll hs.curFits }
  writeCur v hd hs := { hs with curFits := Memory.fits_bitWrite hs.curFits hd v }
  copyCom hs := { hs with comFits := Memory.fits_copyFrom hs.comFits hs.curFits }
  answer _ _ hs := { hs with }
  take _ hs := { hs with }

/-- Settles O54: each part of a step keeps each clause. -/
theorem stepKeepsInv : Obligations.StepKeepsInv :=
  fun _ _ hs h => inv_kept.step h hs

/-! ## Power-on reset -/

theorem Machine.Memory.fits_nil (c : Config) : Memory.fits c [] :=
  ⟨⟨.nil, fun _ h => nomatch h⟩, fun _ h => (nomatch h : False).elim, fun _ _ => BitVec.getLsbD_zero⟩

/-- A block at its reset values (R27) meets the invariant before any well-formed panel. -/
theorem powerOn_inv {c : Config} (hc : c.wf) {p : Panel} (hp : p.Fits c) (ws : List Word)
    (rs : List Response) :
    State.Inv { State.powerOn c with panel := p, pending := ws, responses := rs } where
  cfgWf := hc
  headIn := trivial
  panelHeadIn := hp.headIn
  curFits := Memory.fits_nil c
  comFits := Memory.fits_nil c
  dotsFit := hp.dotsFit
  noPulse := hp.noPulse
  atRest := ⟨rfl, rfl, rfl, rfl⟩
  wholePulses := rfl
  levels := rfl

theorem Machine.Panel.unknown_fits (c : Config) : Panel.unknown.Fits c :=
  ⟨trivial, ⟨.nil, fun _ h => nomatch h⟩, rfl⟩

/-- Settles O18: power-on reset is the block at its reset values before the unknown panel. -/
theorem powerOnSatisfiesInv : Obligations.PowerOnSatisfiesInv := by
  have hinv : ∀ c : Config, c.wf → (State.powerOn c).Inv :=
    fun c hc => powerOn_inv hc (Panel.unknown_fits c) [] []
  exact ⟨fun c hc => ⟨hinv c hc, rfl⟩, hinv Config.default (by decide)⟩

/-- Settles O19: a power cycle is the block at its reset values before the panel there is. -/
theorem powerCycleResetsBlockNotPanel : Obligations.PowerCycleResetsBlockNotPanel :=
  fun s => ⟨rfl, rfl, fun _ => rfl, fun _ => rfl, rfl, rfl, rfl, rfl, fun _ _ => rfl,
    fun hs => powerOn_inv hs.cfgWf hs.panelFits s.pending s.responses⟩

/-- Settles O17: every field of the reset state, read off. -/
theorem resetValues : Obligations.ResetValues := by
  refine ⟨rfl, rfl, fun l => ?_, fun _ => rfl, fun _ => rfl, rfl, rfl, rfl, fun _ _ => rfl, rfl, rfl,
    rfl, rfl, rfl⟩
  cases l <;> rfl

end Sys2Proof
end

section
/-! PROOFS. Runs of head steps (40_scan_head.md R75): `k` commands of one kind move the head `k` times,
and the moves are iterated on naturals. -/

namespace Sys2Proof

open Machine

/-! ## Iterated moves of a head -/

/-- Column steps wrap modulo `W`; the first one re-homes the row (R71, R75). -/
theorem Machine.Pos.iterate_nextColumn (c : Config) (h : Pos) (k : Nat) :
    (Pos.nextColumn c)^[k] h = if k = 0 then h else ⟨(h.x + k) % c.width, 0⟩ := by
  induction k with
  | zero => rfl
  | succ k ih =>
    rw [Function.iterate_succ_apply', ih, if_neg k.succ_ne_zero]
    split_ifs with hk
    · simp [Pos.nextColumn, hk]
    · simp [Pos.nextColumn, Nat.add_assoc]

/-- Row steps wrap modulo `H` in their column (R72, R75). -/
theorem Machine.Pos.iterate_nextRow {c : Config} {h : Pos} (hy : h.y < c.height) (k : Nat) :
    (Pos.nextRow c)^[k] h = ⟨h.x, (h.y + k) % c.height⟩ := by
  induction k with
  | zero => simp [Nat.mod_eq_of_lt hy]
  | succ k ih =>
    rw [Function.iterate_succ_apply', ih]
    simp [Pos.nextRow, Nat.add_assoc]

/-! ## Runs of one command -/

/-- The command completes from every state with the head moved by `f` and the parameters kept. -/
def StepsHead (i : Instr) (f : Config → Pos → Pos) : Prop :=
  ∀ s : State, ∃ t, exec i s = .next t ∧ t.cfg = s.cfg ∧ t.head = s.head.map (f s.cfg)

theorem stepsHead_stc : StepsHead .stc Pos.nextColumn :=
  fun s => ⟨_, exec_stc s, by simp [State.stcOp_moved], by simp [State.stcOp_moved]⟩

theorem stepsHead_str : StepsHead .str Pos.nextRow :=
  fun s => ⟨_, exec_str s, by simp [State.strOp_moved], by simp [State.strOp_moved]⟩

/-- `k` such commands move the head `k` times. -/
theorem StepsHead.execAll_replicate {i : Instr} {f : Config → Pos → Pos} (hi : StepsHead i f) (k : Nat)
    (s : State) : ∃ t, execAll (List.replicate k i) s = .next t ∧ t.cfg = s.cfg ∧
      t.head = s.head.map (f s.cfg)^[k] := by
  induction k generalizing s with
  | zero => exact ⟨s, rfl, rfl, by simp⟩
  | succ k ih =>
    obtain ⟨u, hexec, hcfg, hhead⟩ := hi s
    obtain ⟨t, hrun, hcfg', hhead'⟩ := ih u
    refine ⟨t, (execAll_cons hexec _).trans hrun, hcfg'.trans hcfg, ?_⟩
    rw [hhead', hhead, hcfg, Option.map_map, Function.iterate_succ]

/-- Settles O23: the iterated column step. -/
theorem columnStepsWrapAround : Obligations.ColumnStepsWrapAround := by
  intro s h k hs hd
  obtain ⟨t, hrun, -, hhead⟩ := stepsHead_stc.execAll_replicate k s
  rw [hs, Option.map_some, Pos.iterate_nextColumn] at hhead
  refine ⟨t, hrun, hhead, ?_, fun hk => ?_⟩
  · rw [hhead]
    split_ifs with hk
    · exact hd
    · exact ⟨Nat.mod_lt _ (Nat.zero_lt_of_lt hd.1), Nat.zero_lt_of_lt hd.2⟩
  · have hk0 : k ≠ 0 := hk ▸ Nat.ne_zero_of_lt hd.1
    rw [hhead, if_neg hk0, hk, Nat.add_mod_right, Nat.mod_eq_of_lt hd.1]

/-- Settles O24: the iterated row step. -/
theorem rowStepsWrapAround : Obligations.RowStepsWrapAround := by
  intro s h k hs hd
  obtain ⟨t, hrun, -, hhead⟩ := stepsHead_str.execAll_replicate k s
  rw [hs, Option.map_some, Pos.iterate_nextRow hd.2] at hhead
  refine ⟨t, hrun, hhead, ?_, fun hk => ?_⟩
  · rw [hhead]
    exact ⟨hd.1, Nat.mod_lt _ (Nat.zero_lt_of_lt hd.2)⟩
  · rw [hhead, hk, Nat.add_mod_right, Nat.mod_eq_of_lt hd.2]

/-- After RST, runs of two commands move the head from the origin. -/
theorem execAll_rst_replicate {i j : Instr} {f g : Config → Pos → Pos} (hi : StepsHead i f)
    (hj : StepsHead j g) (m n : Nat) (s : State) :
    ∃ t, execAll (.rst :: (List.replicate m i ++ List.replicate n j)) s = .next t ∧
      t.head = some ((g s.cfg)^[n] ((f s.cfg)^[m] ⟨0, 0⟩)) := by
  obtain ⟨u, hrun, hcfg, hhead⟩ := hi.execAll_replicate m (s.rstOp.answer .ok 0#2)
  obtain ⟨t, hrun', -, hhead'⟩ := hj.execAll_replicate n u
  refine ⟨t, ?_, ?_⟩
  · rw [execAll_cons (exec_rst s), execAll_append hrun, hrun']
  · rw [hhead', hhead, hcfg]
    simp [State.rstOp_moved]

/-- Settles O25: the moves from the origin, in either order. -/
theorem stepsReachEveryDot : Obligations.StepsReachEveryDot := by
  intro s x y hx hy
  have hheight : 0 < s.cfg.height := Nat.zero_lt_of_lt hy
  refine ⟨?_, fun hpos => ?_⟩
  · obtain ⟨t, hrun, hhead⟩ := execAll_rst_replicate stepsHead_stc stepsHead_str x y s
    have hcol : (Pos.nextColumn s.cfg)^[x] ⟨0, 0⟩ = ⟨x, 0⟩ := by
      rw [Pos.iterate_nextColumn]
      split_ifs with h0
      · rw [h0]
      · rw [Nat.zero_add, Nat.mod_eq_of_lt hx]
    refine ⟨t, hrun, ?_⟩
    rw [hhead, hcol, Pos.iterate_nextRow hheight, Nat.zero_add, Nat.mod_eq_of_lt hy]
  · obtain ⟨t, hrun, hhead⟩ := execAll_rst_replicate stepsHead_str stepsHead_stc y x s
    refine ⟨t, hrun, ?_⟩
    rw [hhead, Pos.iterate_nextRow hheight, Pos.iterate_nextColumn, if_neg hpos.ne', Nat.zero_add,
      Nat.mod_eq_of_lt hx]

end Sys2Proof
end

section
/-! PROOFS. The composite commands FCL and AWR (43_driver_sequences.md R96, R97, R101): each is one
move with the spec's events, so what is left to say is what those events do to the line levels; and
the agreement of the heads after a command that begins with a reset pulse (R115). -/

namespace Sys2Proof

open Machine

/-! ## FCL -/

/-- FCL is one move to the origin and the answer (R96). -/
theorem Machine.exec_fcl_moved (s : State) :
    exec .fcl s = .next ((s.moved (some ⟨0, 0⟩) (Expect.fullClear s.cfg)).answer .ok 0#2) := by
  rw [exec_fcl, State.fclScan_moved]

theorem Machine.Lines.set_low_allLow (l : Line) : Lines.allLow.set l false = Lines.allLow := by
  cases l <;> rfl

/-- Resting lines are all low once the polarity line is driven low. -/
theorem Machine.Lines.set_pol_low_of_atRest {ls : Lines} (h : ls.atRest) :
    ls.set .pol false = Lines.allLow := by
  obtain ⟨hcol, hrow, hrst, hcmt⟩ := h
  simp [Lines.set, Lines.allLow, hcol, hrow, hrst, hcmt]

/-- The cells of FCL leave all lines low (R96). -/
theorem Machine.Driven.allLow_run_fclCells (c : Config) (d : Lines × Panel) (h : d.1 = Lines.allLow)
    (is : List Nat) :
    (Driven.run c d (is.flatMap fun i => Expect.commit c false ++ Expect.advance c i)).1 =
      Lines.allLow := by
  induction is generalizing d with
  | nil => exact h
  | cons i is ih =>
    rw [List.flatMap_cons, Driven.run_append, Driven.run_append]
    refine ih _ ?_
    obtain ⟨l, -, hadvance⟩ := Driven.lines_run_advance c (Driven.run c d (Expect.commit c false)) i
    rw [hadvance, Driven.run_commit c d.1 d.2, h, Lines.set_low_allLow, Lines.set_low_allLow,
      Lines.set_low_allLow]

/-- FCL drives every line low that was not low before (R96). -/
theorem Machine.Driven.allLow_run_fullClear (c : Config) (d : Lines × Panel) (h : d.1.atRest) :
    (Driven.run c d (Expect.fullClear c)).1 = Lines.allLow := by
  rw [Expect.fullClear, Driven.run_append, Driven.run_append]
  refine Driven.allLow_run_fclCells c _ ?_ _
  rw [Driven.run_pulse c d.1 d.2 (by decide)]
  exact Lines.set_pol_low_of_atRest (Lines.atRest_set_low h .rst)

/-- Settles O33: FCL is one move, and its events drive all lines low. -/
theorem fclCompletes : Obligations.FclCompletes := by
  refine fun s => ⟨_, exec_fcl_moved s, State.moved_head .., State.moved_trace .., fun hrest => ?_,
    State.keepsBuffers_moved_answer .., State.keepsRest_moved_answer .., State.answers_moved_answer ..⟩
  rw [State.answer_lines, State.moved_lines]
  exact Driven.allLow_run_fullClear s.cfg _ hrest

/-! ## AWR -/

/-- With a head on the panel, AWR to a dot is one move to it and the answer (R97). -/
theorem Machine.exec_awr_moved {s : State} {h : Pos} {x y : Nat} (v : Bool) (hs : s.head = some h)
    (hd : isDot s.cfg h.x h.y) (hx : x < s.cfg.width) (hy : y < s.cfg.height) :
    exec (.awr x y v) s =
      .next ((s.moved (some ⟨x, y⟩) (Expect.addressedWrite s.cfg h x y v)).answer .ok 0#2) := by
  have hv : s.headValid = true := by rw [State.headValid, hs]; rfl
  rw [exec_awr s v ⟨hx, hy⟩ hv, State.walkTo_moved s hs hd hx hy, State.commitOp_moved,
    State.moved_head, State.moved_cfg, State.moved_moved]
  rfl

theorem Machine.Expect.steps_succ (c : Config) (l : Line) (n : Nat) :
    Expect.steps c l (n + 1) = Expect.pulse l c.tStep ++ Expect.steps c l n := by
  simp [Expect.steps, List.replicate_succ]

/-- Step pulses leave resting pulse lines at rest (R73). -/
theorem Machine.Driven.atRest_run_steps (c : Config) (d : Lines × Panel) (h : d.1.atRest) {l : Line}
    (hl : l ≠ .pol) (n : Nat) : (Driven.run c d (Expect.steps c l n)).1.atRest := by
  induction n generalizing d with
  | zero => exact h
  | succ n ih =>
    rw [Expect.steps_succ, Driven.run_append, Driven.run_pulse c d.1 d.2 hl]
    exact ih _ (Lines.atRest_set_low h l)

/-- Settles O34: AWR is one move; its last commit leaves the polarity line at the value. -/
theorem awrCompletes : Obligations.AwrCompletes := by
  intro s h x y v hs hd hx hy
  refine ⟨_, exec_awr_moved v hs hd hx hy, State.moved_head .., State.moved_trace .., ?_,
    fun hrest => ?_, State.keepsBuffers_moved_answer .., State.keepsRest_moved_answer ..,
    State.answers_moved_answer ..⟩
  · rw [State.answer_lines, State.moved_lines, Expect.addressedWrite, Driven.run_append]
    exact Driven.pol_run_commit s.cfg _ v
  · rw [State.answer_lines, State.moved_lines, Expect.addressedWrite, Driven.run_append,
      Driven.run_append]
    exact Driven.atRest_run_commit s.cfg _ (Driven.atRest_run_steps s.cfg _
      (Driven.atRest_run_steps s.cfg _ hrest (by decide) _) (by decide) _) v

/-! ## Heads after a reset pulse -/

/-- Settles O44: the reset pulse brings the heads together, and the rest of the command keeps them so
while the believed head goes to the origin. -/
theorem resetPulsesAgreeTheHeads : Obligations.ResetPulsesAgreeTheHeads := by
  intro s i hi
  have agreed : ∀ u : State, Elementary s.rstOp u → u.head = some ⟨0, 0⟩ →
      u.head = some ⟨0, 0⟩ ∧ u.panel.head = some ⟨0, 0⟩ := fun u hu hhead =>
    ⟨hhead, (headsAgree_kept.elementary hu (State.rstOp_headsAgree s)).trans hhead⟩
  simp only [List.mem_cons, List.not_mem_nil, or_false] at hi
  rcases hi with rfl | rfl | rfl
  · exact ⟨_, exec_rst s, agreed s.rstOp (.refl _) (by rw [State.rstOp_moved, State.moved_head])⟩
  · exact ⟨_, exec_fcl s, agreed (s.rstOp.emit (.low .pol)).fclScan
      ((Elementary.refl _).polLow.trans (.fold .fclCell _ _))
      (by rw [State.fclScan_moved, State.moved_head])⟩
  · exact ⟨_, exec_rdw s, agreed s.rstOp.rdwScan (.fold .rdwCell _ _)
      (by rw [State.rdwScan_moved, State.moved_head])⟩

end Sys2Proof
end

section
/-! PROOFS. Costs (43_driver_sequences.md R98, R100, R103; 70_reset_and_hazards.md R145, R153). What is
counted in a list of events is additive, and the scans of FCL and RDW are one shape: in scan order,
a commit for some cells and an advance for every cell (`Expect.scan`). -/

namespace Sys2Proof

open Machine

/-! ## Counting is additive -/

theorem pulsesOf_append (l : Line) (es fs : List Event) :
    pulsesOf l (es ++ fs) = pulsesOf l es + pulsesOf l fs := List.count_append

theorem stepPulses_append (es fs : List Event) :
    stepPulses (es ++ fs) = stepPulses es + stepPulses fs := by
  simp only [stepPulses, pulsesOf_append]
  omega

theorem requestedDelay_append (es fs : List Event) :
    requestedDelay (es ++ fs) = requestedDelay es + requestedDelay fs := by
  simp [requestedDelay]

/-! ## Pulses, commits, advances -/

theorem pulsesOf_pulse (l k : Line) (n : Nat) :
    pulsesOf l (Expect.pulse k n) = if k = l then 1 else 0 := by
  unfold Expect.pulse
  split_ifs <;> simp [pulsesOf, *]

theorem requestedDelay_pulse (l : Line) (n : Nat) : requestedDelay (Expect.pulse l n) = n := by
  unfold Expect.pulse
  split_ifs with hn
  · exact hn.symm
  · simp [requestedDelay, Event.duration]

theorem pulsesOf_polarity {l : Line} (hl : l ≠ .pol) (v : Bool) :
    pulsesOf l [if v then .high .pol else .low .pol] = 0 := by
  cases v <;> simp [pulsesOf, hl.symm]

theorem requestedDelay_polarity (v : Bool) :
    requestedDelay [if v then .high .pol else .low .pol] = 0 := by
  cases v <;> rfl

theorem pulsesOf_commit (c : Config) {l : Line} (hl : l ≠ .pol) (v : Bool) :
    pulsesOf l (Expect.commit c v) = if l = .cmt then 1 else 0 := by
  rw [Expect.commit, pulsesOf_append, pulsesOf_polarity hl, pulsesOf_pulse, Nat.zero_add]
  simp only [eq_comm]

theorem requestedDelay_commit (c : Config) (v : Bool) :
    requestedDelay (Expect.commit c v) = c.tCommit := by
  rw [Expect.commit, requestedDelay_append, requestedDelay_polarity, requestedDelay_pulse,
    Nat.zero_add]

/-- A commit holds no step pulse. -/
theorem stepPulses_commit (c : Config) (v : Bool) : stepPulses (Expect.commit c v) = 0 := by
  simp [stepPulses, pulsesOf_commit]

section advance
variable (c : Config)

/-- An advance is a column pulse in the last row and a row pulse in the others (R95). -/
theorem pulsesOf_advance (l : Line) (i : Nat) :
    pulsesOf l (Expect.advance c i) =
      if i % c.height + 1 = c.height then (if .col = l then 1 else 0)
      else (if .row = l then 1 else 0) := by
  by_cases hlast : i % c.height + 1 = c.height
  · rw [Expect.advance, if_pos hlast, if_pos hlast, pulsesOf_pulse]
  · rw [Expect.advance, if_neg hlast, if_neg hlast, pulsesOf_pulse]

theorem stepPulses_advance (i : Nat) : stepPulses (Expect.advance c i) = 1 := by
  unfold Expect.advance
  split_ifs
  · simp [stepPulses, pulsesOf_pulse]
  · simp [stepPulses, pulsesOf_pulse]

theorem requestedDelay_advance (i : Nat) : requestedDelay (Expect.advance c i) = c.tStep := by
  unfold Expect.advance
  split_ifs
  · exact requestedDelay_pulse ..
  · exact requestedDelay_pulse ..

end advance

/-! ## Scans -/

/-- The events of the cells `is` of a scan: each cell that `commits` is given its value, and every cell
is followed by its advance (R95, R96, R98). -/
def Machine.Expect.scan (c : Config) (commits value : Nat → Bool) (is : List Nat) : List Event :=
  is.flatMap fun i => (if commits i then Expect.commit c (value i) else []) ++ Expect.advance c i

/-- RDW commits the changed cells (R98). -/
theorem Machine.Expect.redrawCells_eq_scan (s : State) (is : List Nat) :
    Expect.redrawCells s is = Expect.scan s.cfg s.cellChanged
      (fun i => s.currentBit (s.cfg.coord i).x (s.cfg.coord i).y) is := rfl

/-- FCL commits every cell, to 0 (R96). -/
theorem Machine.Expect.fullClear_eq_scan (c : Config) :
    Expect.fullClear c = Expect.pulse .rst c.tReset ++ [.low .pol] ++
      Expect.scan c (fun _ => true) (fun _ => false) (List.range c.nbits) := rfl

section scan
variable (c : Config) (commits value : Nat → Bool)

theorem Machine.Expect.scan_append (is js : List Nat) :
    Expect.scan c commits value (is ++ js) =
      Expect.scan c commits value is ++ Expect.scan c commits value js := List.flatMap_append

theorem Machine.Expect.scan_nil : Expect.scan c commits value [] = [] := rfl

theorem Machine.Expect.scan_cons (i : Nat) (is : List Nat) :
    Expect.scan c commits value (i :: is) =
      (if commits i then Expect.commit c (value i) else []) ++ Expect.advance c i ++
        Expect.scan c commits value is := rfl

/-- Of the pulses of a cell, those of its commit are counted apart from that of its advance. -/
theorem pulsesOf_scan_cons {l : Line} (hl : l ≠ .pol) (i : Nat) (is : List Nat) :
    pulsesOf l (Expect.scan c commits value (i :: is)) =
      (if commits i = true ∧ l = .cmt then 1 else 0) + pulsesOf l (Expect.advance c i) +
        pulsesOf l (Expect.scan c commits value is) := by
  rw [Expect.scan_cons, pulsesOf_append, pulsesOf_append]
  cases commits i
  · simp [pulsesOf]
  · simp [pulsesOf_commit c hl]

/-- One commit pulse for each cell that commits (R100). -/
theorem pulsesOf_cmt_scan (is : List Nat) :
    pulsesOf .cmt (Expect.scan c commits value is) = is.countP commits := by
  induction is with
  | nil => rfl
  | cons i is ih =>
    rw [pulsesOf_scan_cons c commits value (by decide), ih, pulsesOf_advance, List.countP_cons]
    simp [Nat.add_comm]

theorem pulsesOf_rst_scan (is : List Nat) :
    pulsesOf .rst (Expect.scan c commits value is) = 0 := by
  induction is with
  | nil => rfl
  | cons i is ih =>
    rw [pulsesOf_scan_cons c commits value (by decide), ih, pulsesOf_advance]
    simp

/-- One step pulse for each cell (R95). -/
theorem stepPulses_scan (is : List Nat) :
    stepPulses (Expect.scan c commits value is) = is.length := by
  induction is with
  | nil => rfl
  | cons i is ih =>
    rw [Expect.scan_cons, stepPulses_append, stepPulses_append, stepPulses_advance, ih,
      List.length_cons]
    have hcommit : stepPulses (if commits i then Expect.commit c (value i) else []) = 0 := by
      split_ifs
      · exact stepPulses_commit ..
      · rfl
    omega

/-- The last row of a column is the one whose next cell begins a column (R30). -/
theorem Config.lastRow_iff {c : Config} (hpos : 0 < c.height) (i : Nat) :
    i % c.height + 1 = c.height ↔ c.height ∣ i + 1 := by
  have hsplit : i + 1 = c.height * (i / c.height) + (i % c.height + 1) := by
    rw [← Nat.add_assoc, Nat.div_add_mod]
  have hlt := Nat.mod_lt i hpos
  rw [hsplit, Nat.dvd_add_right (Nat.dvd_mul_right ..)]
  exact ⟨fun h => h.symm.dvd, fun h => le_antisymm hlt (Nat.le_of_dvd (Nat.succ_pos _) h)⟩

/-- The first `n` cells hold a column pulse for every full column among them (R95, R100). -/
theorem pulsesOf_col_scan (hpos : 0 < c.height) (n : Nat) :
    pulsesOf .col (Expect.scan c commits value (List.range n)) = n / c.height := by
  induction n with
  | zero => simp [Expect.scan, pulsesOf]
  | succ n ih =>
    rw [List.range_succ, Expect.scan_append, pulsesOf_append, ih, Nat.succ_div,
      pulsesOf_scan_cons c commits value (by decide), pulsesOf_advance]
    simp [Config.lastRow_iff hpos, Expect.scan, pulsesOf]

/-- Every cell waits for its step, every commit for `T_COMMIT` (R153). -/
theorem requestedDelay_scan (is : List Nat) :
    requestedDelay (Expect.scan c commits value is) =
      is.length * c.tStep + is.countP commits * c.tCommit := by
  induction is with
  | nil => simp [Expect.scan, requestedDelay]
  | cons i is ih =>
    rw [Expect.scan_cons, requestedDelay_append, requestedDelay_append, requestedDelay_advance, ih,
      List.length_cons, List.countP_cons]
    cases commits i
    · simp [requestedDelay, Nat.add_mul]
      omega
    · simp [requestedDelay_commit, Nat.add_mul]
      omega

/-- The step pulses of the whole scan by kind: `W` columns, `W * (H - 1)` rows (R100). -/
theorem pulsesOf_wholeScan (hpos : 0 < c.height) :
    pulsesOf .col (Expect.scan c commits value (List.range c.nbits)) = c.width ∧
      pulsesOf .row (Expect.scan c commits value (List.range c.nbits)) =
        c.width * (c.height - 1) := by
  have hcol := pulsesOf_col_scan c commits value hpos c.nbits
  have hstep := stepPulses_scan c commits value (List.range c.nbits)
  rw [Config.nbits, Nat.mul_div_cancel _ hpos] at hcol
  rw [stepPulses, Config.nbits, hcol, List.length_range] at hstep
  refine ⟨hcol, ?_⟩
  rw [Nat.mul_sub_one]
  exact Nat.eq_sub_of_add_eq' hstep

end scan

/-! ## The costs of FCL and RDW -/

/-- Settles O37: the counts of a scan that commits every cell. -/
theorem fclCosts : Obligations.FclCosts := by
  intro s hc
  obtain ⟨-, ⟨hpos, -⟩, -⟩ := hc
  obtain ⟨hcol, hrow⟩ := pulsesOf_wholeScan s.cfg (fun _ => true) (fun _ => false) hpos
  refine ⟨_, Expect.fullClear s.cfg, exec_fcl_moved s, State.moved_trace .., ?_⟩
  simp only [Expect.fullClear_eq_scan, pulsesOf_append, requestedDelay_append, pulsesOf_pulse,
    requestedDelay_pulse, pulsesOf_rst_scan, hcol, hrow, pulsesOf_cmt_scan, requestedDelay_scan]
  simp [pulsesOf, requestedDelay, Event.duration, Nat.mul_add]

/-- Settles O38: the counts of a scan that commits the changed cells. -/
theorem rdwCosts : Obligations.RdwCosts := by
  intro s hc
  obtain ⟨-, ⟨hpos, -⟩, -⟩ := hc
  obtain ⟨hcol, hrow⟩ := pulsesOf_wholeScan s.cfg s.cellChanged
    (fun i => s.currentBit (s.cfg.coord i).x (s.cfg.coord i).y) hpos
  refine ⟨_, Expect.redraw s, exec_rdw_moved s, State.moved_trace .., ?_⟩
  simp only [Expect.redraw, Expect.redrawCells_eq_scan, pulsesOf_append, requestedDelay_append,
    pulsesOf_pulse, requestedDelay_pulse, pulsesOf_rst_scan, hcol, hrow, pulsesOf_cmt_scan,
    requestedDelay_scan]
  simp [State.changedDots, Nat.add_assoc]

/-! ## The costs of AWR -/

theorem pulsesOf_steps (c : Config) (l k : Line) (n : Nat) :
    pulsesOf l (Expect.steps c k n) = if k = l then n else 0 := by
  induction n with
  | zero => simp [Expect.steps, pulsesOf]
  | succ n ih =>
    rw [Expect.steps_succ, pulsesOf_append, pulsesOf_pulse, ih]
    split_ifs
    · exact Nat.add_comm 1 n
    · rfl

theorem requestedDelay_steps (c : Config) (l : Line) (n : Nat) :
    requestedDelay (Expect.steps c l n) = n * c.tStep := by
  induction n with
  | zero => simp [Expect.steps, requestedDelay]
  | succ n ih =>
    rw [Expect.steps_succ, requestedDelay_append, requestedDelay_pulse, ih, Nat.succ_mul, Nat.add_comm]

section addressedWrite
variable {c : Config} {h : Pos} {x y : Nat}

/-- No column step is needed exactly in the head's own column (R97). -/
theorem Machine.Expect.columnSteps_eq_zero_iff (hh : h.x < c.width) (hx : x < c.width) :
    Expect.columnSteps c h x = 0 ↔ x = h.x := by
  refine ⟨fun h0 => (eq_of_distance_zero hh hx h0).symm, ?_⟩
  rintro rfl
  exact distance_self hh

/-- The row steps by the column of the target (R97, R100). -/
theorem Machine.Expect.rowSteps_eq (hh : h.x < c.width) (hx : x < c.width) :
    Expect.rowSteps c h x y = if x = h.x then (y + c.height - h.y) % c.height else y := by
  simp only [Expect.rowSteps, Expect.columnSteps_eq_zero_iff hh hx]

/-- Each loop of the walk takes fewer rounds than its bound (R101). -/
theorem Machine.Expect.steps_lt (hx : x < c.width) (hy : y < c.height) :
    Expect.columnSteps c h x < c.width ∧ Expect.rowSteps c h x y < c.height := by
  refine ⟨Nat.mod_lt _ (Nat.zero_lt_of_lt hx), ?_⟩
  unfold Expect.rowSteps
  split_ifs
  · exact Nat.mod_lt _ (Nat.zero_lt_of_lt hy)
  · exact hy

/-- The pulses of AWR, its polarity apart (R97). -/
theorem pulsesOf_addressedWrite {l : Line} (hl : l ≠ .pol) (v : Bool) :
    pulsesOf l (Expect.addressedWrite c h x y v) =
      (if .col = l then Expect.columnSteps c h x else 0) +
        (if .row = l then Expect.rowSteps c h x y else 0) + if l = .cmt then 1 else 0 := by
  rw [Expect.addressedWrite, pulsesOf_append, pulsesOf_append, pulsesOf_steps, pulsesOf_steps,
    pulsesOf_commit c hl]

theorem stepPulses_addressedWrite (v : Bool) : stepPulses (Expect.addressedWrite c h x y v) =
    Expect.columnSteps c h x + Expect.rowSteps c h x y := by
  simp [stepPulses, pulsesOf_addressedWrite]

theorem requestedDelay_addressedWrite (v : Bool) :
    requestedDelay (Expect.addressedWrite c h x y v) =
      (Expect.columnSteps c h x + Expect.rowSteps c h x y) * c.tStep + c.tCommit := by
  rw [Expect.addressedWrite, requestedDelay_append, requestedDelay_append, requestedDelay_steps,
    requestedDelay_steps, requestedDelay_commit, Nat.add_mul]

end addressedWrite

/-- Settles O39: the counts of the walk and of one commit. -/
theorem awrCosts : Obligations.AwrCosts := by
  intro s h x y v hs hd hx hy
  obtain ⟨hcols, hrows⟩ := Expect.steps_lt (h := h) hx hy
  refine ⟨_, Expect.addressedWrite s.cfg h x y v, exec_awr_moved v hs hd hx hy,
    State.moved_trace .., ?_, ?_, ?_, ?_, ?_, ?_⟩
  · simp [pulsesOf_addressedWrite]
  · simp [pulsesOf_addressedWrite, Expect.columnSteps]
  · simp [pulsesOf_addressedWrite, Expect.rowSteps_eq hd.1 hx]
  · simp [pulsesOf_addressedWrite]
  · rw [stepPulses_addressedWrite]
    omega
  · rw [stepPulses_addressedWrite, requestedDelay_addressedWrite]

/-! ## Which cells RDW commits, and when -/

/-- The events of RDW before the commit of cell `i` (R98). -/
def Machine.Expect.redrawBefore (s : State) (i : Nat) : List Event :=
  Expect.pulse .rst s.cfg.tReset ++ Expect.redrawCells s (List.range i)

/-- The events of RDW after the commit of cell `i` (R98). -/
def Machine.Expect.redrawAfter (s : State) (i : Nat) : List Event :=
  Expect.advance s.cfg i ++ Expect.redrawCells s (List.range' (i + 1) (s.cfg.nbits - (i + 1)))

/-- The cell of a dot is changed when its bits differ (R98). -/
theorem Machine.State.cellChanged_index {s : State} {x y : Nat} (hd : isDot s.cfg x y) :
    s.cellChanged (s.cfg.index x y) = (s.currentBit x y != s.previousBit x y) := by
  rw [State.cellChanged, Config.coord_index hd]

/-- The events of RDW taken apart at the commit of a changed dot (R98). -/
theorem Machine.Expect.redraw_at_dot {s : State} {x y : Nat} (hd : isDot s.cfg x y)
    (hne : s.currentBit x y ≠ s.previousBit x y) :
    Expect.redraw s = Expect.redrawBefore s (s.cfg.index x y) ++
      Expect.commit s.cfg (s.currentBit x y) ++ Expect.redrawAfter s (s.cfg.index x y) := by
  have hchanged : s.cellChanged (s.cfg.index x y) = true := by
    rw [State.cellChanged_index hd]
    exact bne_iff_ne.2 hne
  rw [Expect.redraw, range_eq_append_cons (Config.index_lt hd), Expect.redrawCells_append,
    Expect.redrawCells_cons_changed hchanged, Config.coord_index hd]
  simp only [Expect.redrawBefore, Expect.redrawAfter, List.append_assoc]

/-- Before cell `i` the scan has made `i` steps (R145). -/
theorem stepPulses_redrawBefore (s : State) (i : Nat) : stepPulses (Expect.redrawBefore s i) = i := by
  rw [Expect.redrawBefore, stepPulses_append, Expect.redrawCells_eq_scan, stepPulses_scan,
    List.length_range]
  simp [stepPulses, pulsesOf_pulse]

theorem stepPulses_redraw (s : State) : stepPulses (Expect.redraw s) = s.cfg.nbits :=
  stepPulses_redrawBefore s s.cfg.nbits

/-- The trace of an RDW, taken apart at the commit of a changed dot. -/
theorem Machine.exec_rdw_at_dot {s : State} {x y : Nat} (hd : isDot s.cfg x y)
    (hne : s.currentBit x y ≠ s.previousBit x y) :
    ∃ t, exec .rdw s = .next t ∧ t.trace = s.trace ++ Expect.redrawBefore s (s.cfg.index x y) ++
      Expect.commit s.cfg (s.currentBit x y) ++ Expect.redrawAfter s (s.cfg.index x y) := by
  refine ⟨_, exec_rdw_moved s, ?_⟩
  rw [State.answer_trace, State.setCom_trace, State.moved_trace, Expect.redraw_at_dot hd hne]
  simp only [List.append_assoc]

/-- Settles O40: the scan taken apart at the cell of the dot. -/
theorem rdwCommitsInScanPosition : Obligations.RdwCommitsInScanPosition := by
  intro s x y hx hy hne
  obtain ⟨t, ht, htrace⟩ := exec_rdw_at_dot ⟨hx, hy⟩ hne
  exact ⟨t, _, _, ht, htrace, stepPulses_redrawBefore s _⟩

/-- RDW fires a commit pulse for each changed dot (R98). -/
theorem pulsesOf_cmt_redraw (s : State) : pulsesOf .cmt (Expect.redraw s) = s.changedDots := by
  rw [Expect.redraw, pulsesOf_append, Expect.redrawCells_eq_scan, pulsesOf_cmt_scan, pulsesOf_pulse]
  exact Nat.zero_add _

/-- After RDW every dot's previous bit is its current bit, which has not changed (R98). -/
theorem Machine.previousBit_of_exec_rdw {s t : State} (h : exec .rdw s = .next t) {x y : Nat}
    (hd : isDot s.cfg x y) :
    t.previousBit x y = s.currentBit x y ∧ t.currentBit x y = s.currentBit x y := by
  obtain rfl := Host.Outcome.next.inj ((exec_rdw_moved s).symm.trans h)
  constructor
  · simp [State.previousBit, State.currentBit, Memory.bitRead, Memory.read_copyFrom,
      Config.dot_byteOff_lt hd]
  · simp [State.currentBit]

/-- Settles O41: after an RDW no cell is changed, so the next one commits none and copies what is
there. -/
theorem secondRedrawFiresNoCommit : Obligations.SecondRedrawFiresNoCommit := by
  intro s t ht
  obtain ⟨t', ht', hhead, -, hcom, -, hcur, -⟩ := rdwCompletes s
  obtain rfl := Host.Outcome.next.inj (ht'.symm.trans ht)
  obtain ⟨hcfg, -⟩ := exec_driven ht
  have hsame : ∀ i, i < t'.cfg.nbits → t'.cellChanged i = false := by
    intro i hi
    rw [hcfg] at hi
    obtain ⟨hprevious, hcurrent⟩ := previousBit_of_exec_rdw ht (Config.coord_isDot hi)
    rw [State.cellChanged, hcfg, hprevious, hcurrent, bne_self_eq_false]
  obtain ⟨u, hu, hhead', htrace, hcom', hcomRest, -, hcur', -, hpol, -⟩ := rdwCompletes t'
  refine ⟨u, Expect.redraw t', hu, htrace, ?_, ?_, hhead'.trans hhead.symm, hpol hsame, hcur',
    fun k => ?_⟩
  · rw [pulsesOf_cmt_redraw, State.changedDots, List.countP_eq_zero]
    exact fun i hi => by simp [hsame i (List.mem_range.1 hi)]
  · rw [stepPulses_redraw, hcfg]
  · by_cases hk : k < t'.cfg.nbytes
    · rw [hcom' k hk, hcur, hcom k (hcfg ▸ hk)]
    · exact hcomRest k (Nat.not_lt.1 hk)

/-! ## Minimal pulsing -/

/-- A byte of a cleared buffer has no bit set: every dot reads 0 (R81). -/
theorem Machine.Memory.bitRead_of_read_zero {c : Config} {m : Memory}
    (hm : ∀ k, k < c.nbytes → m.read k = 0x00#8) {x y : Nat} (hd : isDot c x y) :
    m.bitRead c x y = false := by
  rw [Memory.bitRead, hm _ (Config.dot_byteOff_lt hd)]
  exact BitVec.getLsbD_zero

theorem Machine.Memory.bitRead_clearAll (m : Memory) {c : Config} {x y : Nat} (hd : isDot c x y) :
    (m.clearAll c).bitRead c x y = false :=
  Memory.bitRead_of_read_zero (fun k hk => by rw [Memory.read_clearAll, if_pos hk]) hd

/-- No cell but that of the one dot differs after CLR and SPX over an all-zero `COM` (R103). -/
theorem cellChanged_of_one_dot {s t : State} {x y : Nat} (hd : isDot s.cfg x y)
    (hcom : ∀ k, k < s.cfg.nbytes → s.com.read k = 0x00#8) (hcfg : t.cfg = s.cfg)
    (hcom' : t.com = s.com)
    (hcur : t.cur = (s.cur.clearAll s.cfg).bitWrite s.cfg x y true) {i : Nat} (hi : i < s.cfg.nbits) :
    t.cellChanged i = decide (s.cfg.index x y = i) := by
  have hcell := Config.coord_isDot hi
  have hone : ((s.cfg.coord i).x, (s.cfg.coord i).y) = (x, y) ↔ s.cfg.index x y = i :=
    eq_comm.trans (Config.eq_coord_iff hd i)
  rw [State.cellChanged, State.currentBit, State.previousBit, hcfg, hcom', hcur,
    Memory.bitRead_of_read_zero hcom hcell, Memory.bitRead_bitWrite hd hcell,
    Memory.bitRead_clearAll _ hcell]
  by_cases he : s.cfg.index x y = i
  · rw [if_pos (hone.2 he), decide_eq_true he]
    rfl
  · rw [if_neg (fun h => he (hone.1 h)), decide_eq_false he]
    rfl

/-- Cells that are not changed fire no commit pulse (R98). -/
theorem pulsesOf_cmt_redrawCells_unchanged {s : State} {is : List Nat}
    (h : ∀ i ∈ is, s.cellChanged i = false) : pulsesOf .cmt (Expect.redrawCells s is) = 0 := by
  rw [Expect.redrawCells_eq_scan, pulsesOf_cmt_scan, List.countP_eq_zero]
  exact fun i hi => by simp [h i hi]

/-- If only cell `i` is changed, the rest of the scan fires no commit pulse (R103). -/
theorem pulsesOf_cmt_around {s : State} {i : Nat}
    (hi : i < s.cfg.nbits) (h : ∀ j < s.cfg.nbits, j ≠ i → s.cellChanged j = false) :
    pulsesOf .cmt (Expect.redrawBefore s i) = 0 ∧ pulsesOf .cmt (Expect.redrawAfter s i) = 0 := by
  constructor
  · rw [Expect.redrawBefore, pulsesOf_append, pulsesOf_pulse, pulsesOf_cmt_redrawCells_unchanged]
    · rfl
    · intro j hj
      have hlt := List.mem_range.1 hj
      exact h j (hlt.trans hi) hlt.ne
  · rw [Expect.redrawAfter, pulsesOf_append, pulsesOf_advance, pulsesOf_cmt_redrawCells_unchanged]
    · simp
    · intro j hj
      obtain ⟨hlow, hhigh⟩ := List.mem_range'_1.1 hj
      exact h j (by omega) (by omega)

/-- CLR and SPX in range, one after the other. -/
theorem execAll_clr_spx {s : State} {x y : Nat} (hd : isDot s.cfg x y) (v : Bool) :
    ∃ t, execAll [.clr, .spx x y v] s = .next t ∧ t.cfg = s.cfg ∧ t.com = s.com ∧
      t.cur = (s.cur.clearAll s.cfg).bitWrite s.cfg x y v ∧ t.trace = s.trace := by
  let u := (s.setCur (s.cur.clearAll s.cfg)).answer .ok 0#2
  exact ⟨_, (execAll_cons (exec_clr s) _).trans (execAll_cons (exec_spx u v hd) []),
    rfl, rfl, rfl, rfl⟩

/-- Settles O42: RDW is taken apart at the one changed cell; those before and after it commit
nothing. -/
theorem minimalPulsing : Obligations.MinimalPulsing := by
  intro s x y hx hy hcom
  have hd : isDot s.cfg x y := ⟨hx, hy⟩
  obtain ⟨t, hrun, hcfg, hcom', hcur, htrace⟩ := execAll_clr_spx hd true
  have hdt : isDot t.cfg x y := hcfg ▸ hd
  have hcell : ∀ i < t.cfg.nbits, t.cellChanged i = decide (t.cfg.index x y = i) := by
    rw [hcfg]
    exact fun i hi => cellChanged_of_one_dot hd hcom hcfg hcom' hcur hi
  have hcurrent : t.currentBit x y = true := by
    rw [State.currentBit, hcfg, hcur, Memory.bitRead_bitWrite hd hd, if_pos rfl]
  have hprevious : t.previousBit x y = false := by
    rw [State.previousBit, hcfg, hcom', Memory.bitRead_of_read_zero hcom hd]
  obtain ⟨u, hu, hutrace⟩ := exec_rdw_at_dot hdt (by rw [hcurrent, hprevious]; decide)
  obtain ⟨hbefore, hafter⟩ := pulsesOf_cmt_around (Config.index_lt hdt) fun j hj hne => by
    rw [hcell j hj, decide_eq_false hne.symm]
  have hsteps := stepPulses_redraw t
  rw [Expect.redraw_at_dot hdt (by rw [hcurrent, hprevious]; decide), stepPulses_append,
    stepPulses_append, stepPulses_commit] at hsteps
  rw [hcurrent, htrace, hcfg] at hutrace
  rw [hcfg] at hbefore hafter hsteps
  refine ⟨u, _, _, (execAll_append hrun [.rdw]).trans (execAll_cons hu []), hutrace, hbefore, hafter,
    stepPulses_redrawBefore t _, ?_⟩
  rw [stepPulses_append]
  exact hsteps

end Sys2Proof
end

section
/-! PROOFS. The panel (45_panel_environment.md R112 to R116; 70_reset_and_hazards.md R142, R147): which
dots a command writes. A commit writes the one dot it addresses, other pulses none; so a scan from the
origin writes exactly the cells that commit, with the physical head at each in turn. -/

namespace Sys2Proof

open Machine

/-! ## One commit -/

/-- What CMT does to the panel: the addressed dot takes the value, and no head and no counter of free
values moves (R90, R114). -/
theorem Machine.exec_cmt_panel (s : State) (v : Bool) :
    ∃ t, exec (.cmt v) s = .next t ∧ t.cfg = s.cfg ∧ t.panel.head = s.panel.head ∧
      t.panel.blindSteps = s.panel.blindSteps ∧ t.panel.shortCommits = s.panel.shortCommits ∧
      ∀ x y, t.dot x y =
        if (x, y) = ((s.panel.addressed s.cfg).x, (s.panel.addressed s.cfg).y) then v else s.dot x y := by
  refine ⟨_, exec_cmt s v, ?_⟩
  rw [State.commitOp_moved]
  have hpanel := State.panel_moved_commit s s.head v
  refine ⟨State.moved_cfg .., ?_, ?_, ?_, State.dot_moved_commit s s.head v⟩
  · exact (congrArg Panel.head hpanel).trans rfl
  · exact (congrArg Panel.blindSteps hpanel).trans rfl
  · exact (congrArg Panel.shortCommits hpanel).trans (Panel.commitPulse_shortCommits ..)

/-- The addressed dot depends on the head and, when it is unknown, on the count of blind steps (R90,
R114). -/
theorem Machine.Panel.addressed_congr {p q : Panel} (c : Config) (hhead : q.head = p.head)
    (hblind : q.blindSteps = p.blindSteps) : q.addressed c = p.addressed c := by
  rw [Panel.addressed, hhead, hblind]
  rfl

/-- Settles O46: with a known head CMT addresses the dot under it. -/
theorem commitFlipsTheAddressedDot : Obligations.CommitFlipsTheAddressedDot := by
  intro s h v hp
  obtain ⟨t, ht, -, hhead, hblind, hshort, hdot⟩ := exec_cmt_panel s v
  rw [Panel.addressed_of_head hp] at hdot
  refine ⟨t, ht, ?_, fun x y hne => ?_, hhead.trans hp, hblind, hshort⟩
  · rw [hdot, if_pos rfl]
  · rw [hdot, if_neg hne]

/-- Settles O47: with an unknown head CMT addresses one dot of the panel, and the same dot again while
no step pulse comes. -/
theorem blindCommitFlipsOneUnknownDot : Obligations.BlindCommitFlipsOneUnknownDot := by
  intro s v hc hp
  obtain ⟨t, ht, hcfg, hhead, hblind, -, hdot⟩ := exec_cmt_panel s v
  have hin : headIn s.cfg s.panel.head := by rw [hp]; exact trivial
  refine ⟨t, ht, hhead.trans hp, s.panel.addressed s.cfg, Panel.addressed_isDot hc hin, ?_,
    fun x y hne => ?_, fun v' => ?_⟩
  · rw [hdot, if_pos rfl]
  · rw [hdot, if_neg hne]
  · obtain ⟨u, hu, -, -, -, -, hdot'⟩ := exec_cmt_panel t v'
    rw [hcfg, Panel.addressed_congr s.cfg hhead hblind] at hdot'
    refine ⟨u, hu, ?_, fun x y hne => ?_⟩
    · rw [hdot', if_pos rfl]
    · rw [hdot', if_neg hne, hdot, if_neg hne]

/-! ## Pulses that are no commit -/

/-- A reset or step pulse changes no dot (R113). -/
theorem Machine.Panel.dot_completePulse (c : Config) (pol : Bool) (p : Panel) {l : Line}
    (hl : l ≠ .cmt) (n x y : Nat) : (p.completePulse c pol l n).dot x y = p.dot x y := by
  cases l with
  | cmt => exact absurd rfl hl
  | rst | col | row | pol => rfl

theorem Machine.Driven.dot_run_pulse (c : Config) (d : Lines × Panel) {l : Line} (hpol : l ≠ .pol)
    (hcmt : l ≠ .cmt) (n x y : Nat) :
    (Driven.run c d (Expect.pulse l n)).2.dot x y = d.2.dot x y := by
  rw [Driven.run_pulse c d.1 d.2 hpol]
  exact Panel.dot_completePulse c d.1.pol d.2.closed hcmt n x y

theorem Machine.Driven.dot_run_steps (c : Config) (d : Lines × Panel) {l : Line} (hpol : l ≠ .pol)
    (hcmt : l ≠ .cmt) (n x y : Nat) :
    (Driven.run c d (Expect.steps c l n)).2.dot x y = d.2.dot x y := by
  induction n generalizing d with
  | zero => rfl
  | succ n ih =>
    rw [Expect.steps_succ, Driven.run_append, ih, Driven.dot_run_pulse c d hpol hcmt]

/-- A move with one pulse that is no commit changes no dot (R113). -/
theorem Machine.State.dot_moved_pulse (s : State) (h : Option Pos) {l : Line} (hpol : l ≠ .pol)
    (hcmt : l ≠ .cmt) (n x y : Nat) : (s.moved h (Expect.pulse l n)).dot x y = s.dot x y := by
  rw [State.dot, State.moved_panel, Driven.dot_run_pulse s.cfg _ hpol hcmt]
  rfl

/-- Settles O48: the scan-head commands emit one pulse that is no commit, the others none. -/
theorem stepsAndBufferCommandsChangeNoDot : Obligations.StepsAndBufferCommandsChangeNoDot := by
  intro s i x y v hi
  simp only [List.mem_cons, List.not_mem_nil, or_false] at hi
  rcases hi with rfl | rfl | rfl | rfl | rfl | rfl
  · refine ⟨_, exec_rst s, ?_⟩
    rw [State.rstOp_moved]
    exact State.dot_moved_pulse s _ (by decide) (by decide) _
  · refine ⟨_, exec_stc s, ?_⟩
    rw [State.stcOp_moved]
    exact State.dot_moved_pulse s _ (by decide) (by decide) _
  · refine ⟨_, exec_str s, ?_⟩
    rw [State.strOp_moved]
    exact State.dot_moved_pulse s _ (by decide) (by decide) _
  · by_cases hd : isDot s.cfg x y
    · exact ⟨_, exec_spx s v hd, fun _ _ => rfl⟩
    · exact ⟨_, exec_spx_outOfRange s v hd, fun _ _ => rfl⟩
  · exact ⟨_, exec_clr s, fun _ _ => rfl⟩
  · by_cases hd : isDot s.cfg x y
    · exact ⟨_, exec_gpx s hd, fun _ _ => rfl⟩
    · exact ⟨_, exec_gpx_outOfRange s hd, fun _ _ => rfl⟩

/-! ## A scan, cell by cell -/

section scan
variable (c : Config) (d : Lines × Panel)

/-- The panel takes an advance as the believed head does (R95, R112). -/
theorem Machine.Driven.panel_run_advance (i : Nat) :
    (Driven.run c d (Expect.advance c i)).2 =
      d.2.closed.stepHead (Pos.advanced c (c.coord i).y) := by
  unfold Expect.advance
  split_ifs with hlast
  · have hmove : Pos.advanced c (c.coord i).y = Pos.nextColumn c := funext fun _ => if_pos hlast
    rw [Driven.run_pulse c d.1 d.2 (by decide), hmove]
    rfl
  · have hmove : Pos.advanced c (c.coord i).y = Pos.nextRow c := funext fun _ => if_neg hlast
    rw [Driven.run_pulse c d.1 d.2 (by decide), hmove]
    rfl

/-- A cell that commits, with the physical head at it, writes its dot and no other (R114). -/
theorem Machine.Driven.run_cell_commit {i : Nat} (hd : d.2.head = some (c.coord i)) (b v : Bool) :
    (Driven.run c d (if b then Expect.commit c v else [])).2.head = d.2.head ∧
      ∀ x y, (Driven.run c d (if b then Expect.commit c v else [])).2.dot x y =
        if (x, y) = ((c.coord i).x, (c.coord i).y) ∧ b = true then v else d.2.dot x y := by
  cases b with
  | false => exact ⟨rfl, fun x y => by simp⟩
  | true =>
    rw [if_pos rfl, Driven.run_commit c d.1 d.2 v]
    refine ⟨rfl, fun x y => ?_⟩
    rw [Panel.dot_commitPulse, Panel.closed_addressed, Panel.addressed_of_head hd, Panel.closed_dot]
    simp only [and_true]

variable (commits value : Nat → Bool)

/-- The first `n` cells of a scan from the origin: the physical head is at cell `n`, the dots of the
cells that committed have their values, and every other dot is as before (R96, R98, R112, R114). -/
theorem Machine.Driven.run_scan (hd : d.2.head = some ⟨0, 0⟩) {n : Nat} (hn : n ≤ c.nbits) :
    (Driven.run c d (Expect.scan c commits value (List.range n))).2.head = some (scanPos c n) ∧
      ∀ x y, isDot c x y →
        (Driven.run c d (Expect.scan c commits value (List.range n))).2.dot x y =
          if c.index x y < n ∧ commits (c.index x y) = true then value (c.index x y)
          else d.2.dot x y := by
  induction n with
  | zero =>
    refine ⟨hd.trans ?_, fun x y _ => ?_⟩
    · simp [scanPos]
    · simp [Expect.scan]
  | succ n ih =>
    obtain ⟨hhead, hdot⟩ := ih (by omega)
    have hcell : scanPos c n = c.coord n := if_neg (by omega)
    obtain ⟨hhead', hdot'⟩ := Driven.run_cell_commit c _ (hhead.trans (congrArg some hcell))
      (commits n) (value n)
    rw [List.range_succ, Expect.scan_append, Expect.scan_cons, Driven.run_append, Driven.run_append,
      Driven.run_append]
    refine ⟨?_, fun x y hxy => ?_⟩
    · rw [Expect.scan_nil, Driven.run_nil, Driven.panel_run_advance,
        Panel.stepHead_head, Panel.closed_head, hhead', hhead, scanPos_succ c (by omega)]
    · rw [Expect.scan_nil, Driven.run_nil, Driven.panel_run_advance,
        Panel.stepHead_dot, Panel.closed_dot, hdot', hdot x y hxy]
      simp only [Config.eq_coord_iff hxy]
      by_cases hi : c.index x y = n
      · simp [hi]
      · have hlt : c.index x y < n + 1 ↔ c.index x y < n := by omega
        simp [hi, hlt]

end scan

/-! ## FCL and RDW on the dots -/

/-- After the reset pulse the physical head is at the origin and the dots are as before (R112). -/
theorem Machine.Driven.run_reset (c : Config) (d : Lines × Panel) :
    (Driven.run c d (Expect.pulse .rst c.tReset)).2.head = some ⟨0, 0⟩ ∧
      ∀ x y, (Driven.run c d (Expect.pulse .rst c.tReset)).2.dot x y = d.2.dot x y := by
  refine ⟨?_, Driven.dot_run_pulse c d (by decide) (by decide) _⟩
  rw [Driven.run_pulse c d.1 d.2 (by decide)]
  rfl

/-- A polarity event moves no head (R114). -/
theorem Machine.Driven.head_run_polarity (c : Config) (d : Lines × Panel) (v : Bool) :
    (Driven.run c d [if v then .high .pol else .low .pol]).2.head = d.2.head := by
  rw [Driven.run_polarity c d.1 d.2]
  split_ifs
  · rfl
  · rfl

/-- The move of FCL turns every dot off (R116). -/
theorem Machine.State.dot_moved_fullClear (s : State) (h : Option Pos) {x y : Nat}
    (hd : isDot s.cfg x y) : (s.moved h (Expect.fullClear s.cfg)).dot x y = false := by
  obtain ⟨hreset, -⟩ := Driven.run_reset s.cfg (s.lines, s.panel)
  have horigin := (Driven.head_run_polarity s.cfg _ false).trans hreset
  obtain ⟨-, hdot⟩ := Driven.run_scan s.cfg _ (fun _ => true) (fun _ => false) horigin le_rfl
  rw [State.dot, State.moved_panel, Expect.fullClear_eq_scan, Driven.run_append, Driven.run_append]
  exact (hdot x y hd).trans (if_pos ⟨Config.index_lt hd, rfl⟩)

/-- RDW writes the changed dots and no other (R98, R114). -/
theorem Machine.dot_of_exec_rdw {s t : State} (h : exec .rdw s = .next t) {x y : Nat}
    (hd : isDot s.cfg x y) :
    t.dot x y = if s.currentBit x y = s.previousBit x y then s.dot x y else s.currentBit x y := by
  obtain rfl := Host.Outcome.next.inj ((exec_rdw_moved s).symm.trans h)
  obtain ⟨horigin, hkept⟩ := Driven.run_reset s.cfg (s.lines, s.panel)
  obtain ⟨-, hdot⟩ := Driven.run_scan s.cfg _ s.cellChanged
    (fun i => s.currentBit (s.cfg.coord i).x (s.cfg.coord i).y) horigin le_rfl
  rw [State.dot, State.answer_panel, State.setCom_panel, State.moved_panel, Expect.redraw,
    Driven.run_append, Expect.redrawCells_eq_scan, hdot x y hd, hkept, State.cellChanged_index hd,
    Config.coord_index hd]
  by_cases heq : s.currentBit x y = s.previousBit x y
  · simp [heq, State.dot]
  · simp [heq, Config.index_lt hd]

/-- Settles O49: FCL commits 0 in every cell. -/
theorem fclBlanksThePanel : Obligations.FclBlanksThePanel :=
  fun s => ⟨_, exec_fcl_moved s, fun _ _ hd => State.dot_moved_fullClear s _ hd⟩

/-- Settles O50: RDW writes the changed dots, and the others showed their current bit already. -/
theorem rdwShowsTheCurrentBuffer : Obligations.RdwShowsTheCurrentBuffer := by
  intro s hmirrors
  obtain ⟨t, ht⟩ := (exec_observesNoOutput .rdw).completes s
  obtain ⟨hcfg, -⟩ := exec_driven ht
  have hshown : ∀ x y, isDot s.cfg x y →
      t.dot x y = s.currentBit x y ∧ t.previousBit x y = s.currentBit x y := by
    intro x y hd
    obtain ⟨hprevious, -⟩ := previousBit_of_exec_rdw ht hd
    refine ⟨?_, hprevious⟩
    rw [dot_of_exec_rdw ht hd]
    split_ifs with heq
    · rw [hmirrors x y hd, heq]
    · rfl
  refine ⟨t, ht, fun x y hd => ?_, hshown⟩
  obtain ⟨hdot, hprevious⟩ := hshown x y (hcfg ▸ hd)
  rw [hdot, hprevious]

/-! ## AWR on the dots -/

/-- The walk of AWR brings agreeing heads to the target and changes no dot (R97, R113, R115). -/
theorem Machine.State.walkTo_panel {s : State} {h : Pos} {x y : Nat} (hs : s.head = some h)
    (hagree : s.headsAgree) (hd : isDot s.cfg h.x h.y) (hx : x < s.cfg.width)
    (hy : y < s.cfg.height) :
    (s.walkTo x y).panel.head = some ⟨x, y⟩ ∧ ∀ a b, (s.walkTo x y).dot a b = s.dot a b := by
  have hwalk := State.walkTo_moved s hs hd hx hy
  constructor
  · have hkept := headsAgree_kept.elementary
      ((Elementary.stepColumnsTo x s.cfg.width s).trans (.stepRowsTo y s.cfg.height _)) hagree
    exact hkept.trans (by rw [← State.walkTo, hwalk, State.moved_head])
  · intro a b
    rw [hwalk, State.dot, State.moved_panel, Driven.run_append,
      Driven.dot_run_steps s.cfg _ (by decide) (by decide),
      Driven.dot_run_steps s.cfg _ (by decide) (by decide)]
    rfl

/-- What AWR leaves with agreeing heads: the target takes the value, every other dot, both buffers and
the parameters stay, and both heads are at the target (R97, R114, R116). -/
theorem Machine.exec_awr_panel {s : State} {h : Pos} {x y : Nat} (v : Bool) (hs : s.head = some h)
    (hagree : s.headsAgree) (hd : isDot s.cfg h.x h.y) (hx : x < s.cfg.width)
    (hy : y < s.cfg.height) :
    ∃ t, exec (.awr x y v) s = .next t ∧ t.cfg = s.cfg ∧ t.com = s.com ∧
      t.head = some ⟨x, y⟩ ∧ t.panel.head = some ⟨x, y⟩ ∧
      ∀ a b, t.dot a b = if (a, b) = (x, y) then v else s.dot a b := by
  obtain ⟨hphysical, hdots⟩ := State.walkTo_panel hs hagree hd hx hy
  have hwalk := State.walkTo_moved s hs hd hx hy
  have hv : s.headValid = true := by rw [State.headValid, hs]; rfl
  refine ⟨_, exec_awr s v ⟨hx, hy⟩ hv, ?_⟩
  rw [State.commitOp_moved]
  refine ⟨by simp [hwalk], by simp [hwalk], by simp [hwalk], ?_, fun a b => ?_⟩
  · rw [State.answer_panel, State.panel_moved_commit]
    exact hphysical
  · refine (State.dot_moved_commit (s.walkTo x y) _ v a b).trans ?_
    rw [Panel.addressed_of_head hphysical, hdots]

/-- Settles O51: the walk changes no dot, the commit the target only, and `COM` is untouched. -/
theorem awrSetsItsDot : Obligations.AwrSetsItsDot := by
  intro s h x y v hs hagree hd hx hy
  obtain ⟨t, ht, hcfg, hcom, hhead, hphysical, hdot⟩ := exec_awr_panel v hs hagree hd hx hy
  have hprevious : ∀ a b, t.previousBit a b = s.previousBit a b := fun a b => by
    rw [State.previousBit, hcfg, hcom]
    rfl
  refine ⟨t, ht, (hdot x y).trans (if_pos rfl), fun a b hne => (hdot a b).trans (if_neg hne), hhead,
    hphysical, fun hmirrors => ⟨fun hmirrors' => ?_, fun hv a b hab => ?_⟩⟩
  · have htarget := hmirrors' x y (hcfg ▸ ⟨hx, hy⟩)
    rw [hdot, if_pos rfl, hprevious] at htarget
    exact htarget.symm
  · rw [hdot, hprevious]
    split_ifs with heq
    · obtain ⟨rfl, rfl⟩ := Prod.mk.inj heq
      exact hv.symm
    · exact hmirrors a b (hcfg ▸ hab)

/-! ## Sequences that begin with FCL -/

/-- FCL and CLR, one after the other: every dot off, every byte of `CUR` zero (R96, R81). -/
theorem execAll_fcl_clr (s : State) :
    ∃ t, execAll [.fcl, .clr] s = .next t ∧ t.cfg = s.cfg ∧
      (∀ x y, isDot s.cfg x y → t.dot x y = false) ∧
      (∀ k, k < s.cfg.nbytes → t.cur.read k = 0x00#8) ∧
      t.responses = s.responses ++ [⟨.ok, 0#2⟩, ⟨.ok, 0#2⟩] := by
  let u := (s.moved (some ⟨0, 0⟩) (Expect.fullClear s.cfg)).answer .ok 0#2
  have hcfg : u.cfg = s.cfg := State.moved_cfg ..
  refine ⟨_, (execAll_cons (exec_fcl_moved s) _).trans (execAll_cons (exec_clr u) []), hcfg,
    fun x y hd => State.dot_moved_fullClear s _ hd, fun k hk => ?_, ?_⟩
  · rw [State.answer_cur, State.setCur_cur, Memory.read_clearAll, hcfg, if_pos hk]
  · simp [u]

/-- Settles O52: before the RDW every dot is off and `CUR` is zero, so every dot stays off or is turned
off, and `COM` becomes zero; its reset pulse brings the heads together. -/
theorem bootSequenceEstablishesAgreement : Obligations.BootSequenceEstablishesAgreement := by
  intro s
  obtain ⟨t, hrun, hcfg, hoff, hzero, hresponses⟩ := execAll_fcl_clr s
  obtain ⟨u, hu, -, -, hcom, -, -, hcur, -, -, -, -, hanswer⟩ := rdwCompletes t
  obtain ⟨u', hu', hhead, hphysical⟩ := resetPulsesAgreeTheHeads t .rdw (by simp)
  obtain rfl := Host.Outcome.next.inj (hu'.symm.trans hu)
  obtain ⟨hcfg', -⟩ := exec_driven hu
  have hcurrent : ∀ x y, isDot s.cfg x y → t.currentBit x y = false := fun x y hd => by
    rw [State.currentBit, hcfg]
    exact Memory.bitRead_of_read_zero hzero hd
  have hdark : ∀ x y, isDot s.cfg x y → u'.dot x y = false := by
    intro x y hd
    rw [dot_of_exec_rdw hu (hcfg ▸ hd), hoff x y hd, hcurrent x y hd]
    split_ifs
    · rfl
    · rfl
  refine ⟨u', (execAll_append hrun [.rdw]).trans (execAll_cons hu []), hhead, hphysical,
    fun k hk => ?_, hdark, fun x y hd => ?_, ?_⟩
  · rw [hcur, hcom k (hcfg ▸ hk)]
    exact ⟨hzero k hk, hzero k hk⟩
  · rw [hcfg', hcfg] at hd
    obtain ⟨hprevious, -⟩ := previousBit_of_exec_rdw hu (hcfg ▸ hd)
    rw [hdark x y hd, hprevious, hcurrent x y hd]
  · rw [hanswer, hresponses, List.append_assoc]
    rfl

/-- Settles O53: FCL leaves both bits 1 and the dot off, and RDW does not write an unchanged dot. -/
theorem staleCommittedBufferHazard : Obligations.StaleCommittedBufferHazard := by
  intro s x y hd hcurrent hprevious
  let u := (s.moved (some ⟨0, 0⟩) (Expect.fullClear s.cfg)).answer .ok 0#2
  have hdu : isDot u.cfg x y := (State.moved_cfg s _ _).symm ▸ hd
  have hoff : u.dot x y = false := State.dot_moved_fullClear s _ hd
  have hcurrent' : u.currentBit x y = true := (State.currentBit_moved ..).trans hcurrent
  have hprevious' : u.previousBit x y = true := (State.previousBit_moved ..).trans hprevious
  obtain ⟨t, ht⟩ := (exec_observesNoOutput .rdw).completes u
  obtain ⟨hpreviousAfter, hcurrentAfter⟩ := previousBit_of_exec_rdw ht hdu
  refine ⟨t, (execAll_cons (exec_fcl_moved s) [.rdw]).trans (execAll_cons ht []), ?_,
    hcurrentAfter.trans hcurrent', hpreviousAfter.trans hcurrent'⟩
  rw [dot_of_exec_rdw ht hdu, if_pos (hcurrent'.trans hprevious'.symm), hoff]

end Sys2Proof
end
